-- ==== Sys2Proof/Word.lean ====
section
/-! DEFINITION. The word types of the hardware: `00_scope.md` rules R8, R9, R11. -/

namespace Sys2Proof

/-- A value of XLEN = 32 bits: a register, a data cell, a data address (R9, D1); also an instruction
word, ILEN = 32 (D8), and the program counter, PCW = 32 (D11). -/
abbrev Word := BitVec 32

/-- The 5-bit index of one of the 32 general registers (`10_state.md` R20, R23). -/
abbrev RegIdx := BitVec 5

/-- Text inside an instruction record, as its characters in order (`30_encoding.md` R80; log 12). -/
abbrev Text := List Char

end Sys2Proof
end

