-- ==== Sys2Proof/Config.lean ====
section
/-! DEFINITION. The fixed parameters the other files name (`00_scope.md` R8, R9). The spec leaves no value
open, so no constant here is opaque. -/

namespace Sys2Proof

/-- What a data cell holds that nothing has written (R8; `20_memory.md` R58). -/
def Config.cellDefault : Word := 0#32

/-- A program has fewer than 2^PCW instructions (R9, D11, D12). -/
def Config.programLimit : Nat := 2 ^ 32

/-- The canonical no-operation word (`30_encoding.md` R97). -/
def Config.canonicalNop : Word := 0#32

end Sys2Proof
end

