-- ==== Sys2Proof/Syntax.lean ====
section
/-! DEFINITION. The decoded form of an instruction: `00_scope.md` R7, one constructor per row of
spec/opcode_table.json. -/

namespace Sys2Proof

/-- The abstract form `Op` on which the Executor acts (R7), reached from words and from records alike. -/
inductive Instr where
  /-- `Add(rd, rs, rt)`, the row ADD. -/
  | add (rd rs rt : RegIdx)
  /-- `Sub(rd, rs, rt)`, the row SUB. -/
  | sub (rd rs rt : RegIdx)
  /-- `Lw(rt, off, base)`, the row LW; `off` is already an XLEN-bit value. -/
  | lw (rt : RegIdx) (off : Word) (base : RegIdx)
  /-- `Sw(rt, off, base)`, the row SW; `off` is already an XLEN-bit value. -/
  | sw (rt : RegIdx) (off : Word) (base : RegIdx)
  /-- `Nop`, the row UNRECOGNIZED: the opcode is not one of the four. -/
  | unrecognized
  deriving DecidableEq, Repr

end Sys2Proof
end

