-- ==== Sys2Proof/WellFormed.lean ====
section
/-! DEFINITION. Which decoded instructions have a 32-bit word: `30_encoding.md` R90, R100, R101. -/

namespace Sys2Proof

/-- The offset is the sign extension of a 16-bit field, that is -32768 ≤ off ≤ 32767 read as signed
(R90). Instructions of the record level also hold offsets outside this range. That a record has a word
(R101 b) is a question of its offset as written, before any reduction: `Machine.assemble`. -/
def offsetFits (off : Word) : Bool := off == (off.extractLsb' 0 16).signExtend 32

/-- The instruction has a word. Every register index is legal (R90), so only an offset can be at fault. -/
def Instr.wellFormed : Instr → Bool
  | .add _ _ _ => true
  | .sub _ _ _ => true
  | .lw _ off _ => offsetFits off
  | .sw _ off _ => offsetFits off
  | .unrecognized => true

end Sys2Proof
end

