-- ==== Sys2Proof/Decode.lean ====
section
/-! DEFINITION. The Decoder unit (`40_decoder.md`) at both levels, and after it the encoders
(`30_encoding.md` R88 to R101). -/

namespace Sys2Proof

/-- An undecoded instruction: a 32-bit word, or a text record (`00_scope.md` R6, R11; log 1). -/
inductive RawInstr where
  | word (w : Word)
  | record (t : Text)
  deriving DecidableEq, Repr

/-- A decoded instruction: at the word level an `Op`, at the record level the pair
`(opcode, operands)` (`00_scope.md` R11; `40_decoder.md` R121, R126). -/
inductive Decoded where
  | op (i : Instr)
  | pair (opcode : Text) (operands : List Text)
  deriving DecidableEq, Repr

/-- The three faults of the hardware (`60_exceptions.md` R200). -/
inductive FaultKind where
  /-- The record does not split; raised by the Decoder (R201). -/
  | formatError
  /-- The operand count is wrong; raised by the Executor (R202). -/
  | operandArityError
  /-- An operand has the wrong shape; raised by the Executor (R203). -/
  | operandFormError
  deriving DecidableEq, Repr

/-- The numeric code of a fault (R200). -/
def FaultKind.code : FaultKind → BitVec 2
  | .formatError => 1#2
  | .operandArityError => 2#2
  | .operandFormError => 3#2

/-! Word level. -/

def fieldOpcode (w : Word) : BitVec 6 := w.extractLsb' 26 6
def fieldRs (w : Word) : RegIdx := w.extractLsb' 21 5
def fieldRt (w : Word) : RegIdx := w.extractLsb' 16 5
def fieldRd (w : Word) : RegIdx := w.extractLsb' 11 5
def fieldShamt (w : Word) : BitVec 5 := w.extractLsb' 6 5
def fieldFunct (w : Word) : BitVec 6 := w.extractLsb' 0 6
def fieldImm (w : Word) : BitVec 16 := w.extractLsb' 0 16

/-- The offset of LW and SW: the 16-bit field, sign-extended, not scaled (`30_encoding.md` R90). -/
def signedOffset (imm : BitVec 16) : Word := imm.signExtend 32

/-- The word-level Decoder, total (`40_decoder.md` R126, R127). -/
def decodeWord (w : Word) : Instr :=
  if fieldOpcode w = 0b000000#6 ∧ fieldShamt w = 0b00000#5 ∧ fieldFunct w = 0b100000#6 then
    .add (fieldRd w) (fieldRs w) (fieldRt w)
  else if fieldOpcode w = 0b000000#6 ∧ fieldShamt w = 0b00000#5 ∧ fieldFunct w = 0b100010#6 then
    .sub (fieldRd w) (fieldRs w) (fieldRt w)
  else if fieldOpcode w = 0b100011#6 then
    .lw (fieldRt w) (signedOffset (fieldImm w)) (fieldRs w)
  else if fieldOpcode w = 0b101011#6 then
    .sw (fieldRt w) (signedOffset (fieldImm w)) (fieldRs w)
  else .unrecognized

/-! Record level. -/

/-- The text before and after the first occurrence of a character, or nothing where it does not occur. -/
def splitFirst (sep : Char) : Text → Option (Text × Text)
  | [] => none
  | c :: cs =>
    if c = sep then some ([], cs)
    else match splitFirst sep cs with
      | some (before, after) => some (c :: before, after)
      | none => none

/-- `split(rest, ",")`: always at least one piece (`40_decoder.md` R121). -/
def splitCommas : Text → List Text
  | [] => [[]]
  | c :: cs =>
    if c = ',' then [] :: splitCommas cs
    else match splitCommas cs with
      | [] => [[c]]
      | p :: ps => (c :: p) :: ps

/-- What `trim` drops: spaces and tabs (R121). -/
def isBlank (c : Char) : Bool := c == ' ' || c == '\t'

/-- `trim`: spaces and tabs at both ends dropped (R121). -/
def trim (t : Text) : Text := ((t.dropWhile isBlank).reverse.dropWhile isBlank).reverse

/-- The record-level Decoder (R121): FormatError where the record has no space (R122). It checks neither
the opcode nor the operands (R120, R124). -/
def decodeRecord (t : Text) : Except FaultKind Decoded :=
  match splitFirst ' ' t with
  | none => .error .formatError
  | some (opcode, rest) => .ok (.pair opcode ((splitCommas rest).map trim))

/-- The Decoder, a pure function of the instruction (R120). -/
def decodeRaw : RawInstr → Except FaultKind Decoded
  | .word w => .ok (.op (decodeWord w))
  | .record t => decodeRecord t

/-! Encoders. -/

/-- R format (`30_encoding.md` R88), opcode 000000 and shamt 00000. -/
def rFormat (rs rt rd : RegIdx) (funct : BitVec 6) : Word :=
  0b000000#6 ++ rs ++ rt ++ rd ++ 0b00000#5 ++ funct

/-- I format (R89). -/
def iFormat (opcode : BitVec 6) (base rt : RegIdx) (imm : BitVec 16) : Word :=
  opcode ++ base ++ rt ++ imm

/-- The word of an instruction (R91 to R94, R97, R100); it keeps the low 16 bits of an offset, which is
the whole offset of a well-formed instruction. -/
def encode : Instr → Word
  | .add rd rs rt => rFormat rs rt rd 0b100000#6
  | .sub rd rs rt => rFormat rs rt rd 0b100010#6
  | .lw rt off base => iFormat 0b100011#6 base rt (off.extractLsb' 0 16)
  | .sw rt off base => iFormat 0b101011#6 base rt (off.extractLsb' 0 16)
  | .unrecognized => Config.canonicalNop

/-- One row of spec/opcode_table.json: a word selects it when `w AND mask = pattern` (R95). -/
structure OpcodeRow where
  mnemonic : String
  pattern : Word
  mask : Word
  deriving DecidableEq, Repr

/-- The four rows that have a pattern (R91 to R94). -/
def opcodeRows : List OpcodeRow :=
  [⟨"ADD", 0x00000020#32, 0xFC0007FF#32⟩, ⟨"SUB", 0x00000022#32, 0xFC0007FF#32⟩,
   ⟨"LW", 0x8C000000#32, 0xFC000000#32⟩, ⟨"SW", 0xAC000000#32, 0xFC000000#32⟩]

/-- The word selects the row (R95). -/
def OpcodeRow.selects (row : OpcodeRow) (w : Word) : Bool := w &&& row.mask == row.pattern

/-- The mnemonic of the row a decoded instruction belongs to. -/
def Instr.mnemonic : Instr → String
  | .add _ _ _ => "ADD"
  | .sub _ _ _ => "SUB"
  | .lw _ _ _ => "LW"
  | .sw _ _ _ => "SW"
  | .unrecognized => "UNRECOGNIZED"

/-- A decimal digit as a character. -/
def digitChar (d : Nat) : Char := Char.ofNat (48 + d)

/-- A number in decimal without leading zeros, of at most as many digits as the first argument says. -/
def decimalText : Nat → Nat → Text
  | 0, _ => []
  | fuel + 1, n =>
    if n < 10 then [digitChar n] else decimalText fuel (n / 10) ++ [digitChar (n % 10)]

/-- `$r<n>` (`10_state.md` R23). -/
def regText (r : RegIdx) : Text := '$' :: 'r' :: decimalText 2 r.toNat

/-- A signed offset in decimal (R85); ten digits hold every 32-bit value. -/
def offsetText (off : Word) : Text :=
  if off.toInt < 0 then '-' :: decimalText 10 off.toInt.natAbs else decimalText 10 off.toInt.natAbs

/-- The three register operands of ADD and SUB, destination first (R84). -/
def aluOperandsText (rd rs rt : RegIdx) : Text :=
  regText rd ++ [','] ++ regText rs ++ [','] ++ regText rt

/-- The two operands of LW and SW (R85). -/
def memOperandsText (rt : RegIdx) (off : Word) (base : RegIdx) : Text :=
  regText rt ++ [','] ++ offsetText off ++ ['('] ++ regText base ++ [')']

/-- The canonical record of an instruction (R86, R100); for `Nop` one of its many records (log 13). -/
def recordText : Instr → Text
  | .add rd rs rt => "ADD ".toList ++ aluOperandsText rd rs rt
  | .sub rd rs rt => "SUB ".toList ++ aluOperandsText rd rs rt
  | .lw rt off base => "LW ".toList ++ memOperandsText rt off base
  | .sw rt off base => "SW ".toList ++ memOperandsText rt off base
  | .unrecognized => "NOP x".toList

/-- The 32-bit word whose low `nbits` bits are those of `w`, the rest 0. -/
def tableWord (nbits w : Nat) : Word := BitVec.ofNat 32 (w % 2 ^ nbits)

/-- The host's view of the word-level Decoder: bits numbered as in spec/opcode_table.json. The Decoder
refuses no word (R127); more than 32 bits are no instruction of this hardware (R87; log 14). -/
def decodeTableWord (nbits w : Nat) : Option Instr :=
  if nbits ≤ 32 then some (decodeWord (tableWord nbits w)) else none

end Sys2Proof
end

