-- ==== Sys2Proof/Machine/State.lean ====
section
/-! DEFINITION. The machine state `σ = (x, M, K, pc, S[0..4], H, W, fault)` with the program `IMEM`
(`44_pipeline_sequencer.md` R170; `10_state.md`), as plain data, and its value after reset (R39). -/

namespace Sys2Proof.Machine

/-- The content of one stage slot (`10_state.md` R29). -/
inductive Slot where
  /-- No occupant. -/
  | empty
  /-- `Raw(i)`, an undecoded instruction. -/
  | raw (i : RawInstr)
  /-- `Dec(d)`, a decoded instruction. -/
  | dec (d : Decoded)
  deriving DecidableEq, Repr

/-- The five stage slots `S[0]` to `S[4]`, labelled IF, ID, EX, MEM, WB (R29). -/
structure Slots where
  s0 : Slot
  s1 : Slot
  s2 : Slot
  s3 : Slot
  s4 : Slot
  deriving DecidableEq, Repr

/-- A CycleRecord: the five slots at the end of one cycle (R31, `44_pipeline_sequencer.md` R177). -/
abbrev CycleRecord := Slots

/-- What the fault latch holds once a fault is raised (R33): its kind and the slot content that caused it. -/
structure FaultLatch where
  kind : FaultKind
  occupant : Slot
  deriving DecidableEq, Repr

/-- Data memory: (address, value) pairs, one for each cell that does not hold the default (log 3). The
spec's memory is cell-addressed, so an entry is a whole 32-bit cell (`20_memory.md` R52). -/
abbrev Memory := List (Nat × Word)

/-- The key set `K`: materialised addresses in rising order (R36; log 4). -/
abbrev KeySet := List Nat

/-- The state of the hardware. -/
structure State where
  /-- `x[0]` to `x[31]` (R20). -/
  regs : Vector Word 32
  /-- The data memory `M` (R35). -/
  mem : Memory
  /-- The key set `K` (R36). -/
  keys : KeySet
  /-- The index of the next instruction to fetch (R24). -/
  pc : Word
  /-- `S[0..4]` (R29). -/
  slots : Slots
  /-- The history `H`, oldest record first (R31). -/
  hist : List CycleRecord
  /-- The retire log `W`, oldest entry first (R32). -/
  retired : List Decoded
  /-- The fault latch (R33). -/
  latch : Option FaultLatch
  /-- The instruction store `IMEM`; `N` is its length (R34; log 2). -/
  imem : List RawInstr
  deriving DecidableEq, Repr

/-- `N`, the number of instructions of the program (`00_scope.md` R9). -/
def State.programLength (s : State) : Nat := s.imem.length

/-- Reasons for which the model itself would stop with a fault: there is none, and nobody raises one.
Every fault of this hardware is latched in the state, which is a next state (`60_exceptions.md` R204;
log 6), and no other condition stops the machine (R210). Safe: nothing is left out by it. -/
inductive Fault where
  deriving DecidableEq, Repr

/-- Reasons for which the model has no meaning for an instruction. -/
inductive Refusal where
  /-- Raised only by an arm of `exec` whose instruction has no meaning yet; no arm is one. Safe. -/
  | notModelled (mnemonic : String)
  deriving DecidableEq, Repr

/-- All five slots empty. -/
def Slots.allEmpty : Slots := ⟨.empty, .empty, .empty, .empty, .empty⟩

/-- The machine right after reset (R39, `70_reset_and_hazards.md` R230), no program supplied yet (log 2). -/
def State.reset : State where
  regs := Vector.replicate 32 0#32
  mem := []
  keys := []
  pc := 0#32
  slots := Slots.allEmpty
  hist := []
  retired := []
  latch := none
  imem := []

end Sys2Proof.Machine
end

