-- ==== Sys2Proof/Machine/Ops.lean ====
section
/-! DEFINITION. The operations on registers, data memory and key set, the raising of a fault (the only
trap entry of this hardware; there is no return from it, `60_exceptions.md` R204, R208), and the placing
of a first instruction. -/

namespace Sys2Proof.Machine

/-- `x[i]` read: no register is hardwired (`10_state.md` R21). -/
def State.readReg (s : State) (r : RegIdx) : Word := s.regs[r.toNat]'r.isLt

/-- `x[i] <- v` (R21). -/
def State.writeReg (r : RegIdx) (v : Word) (s : State) : State :=
  { s with regs := s.regs.set r.toNat v r.isLt }

/-- The value of the cell at an address; an unlisted cell holds the default (`20_memory.md` R58). -/
def Memory.read : Memory → Nat → Word
  | [], _ => Config.cellDefault
  | (k, v) :: rest, a => if k = a then v else Memory.read rest a

/-- Put a cell before the rest of a memory, unless it holds what an unlisted cell holds. -/
def Memory.cons (a : Nat) (v : Word) (rest : Memory) : Memory :=
  if v = Config.cellDefault then rest else (a, v) :: rest

/-- Write one cell, keeping the canonical form. -/
def Memory.write : Memory → Nat → Word → Memory
  | [], a, v => Memory.cons a v []
  | (k, u) :: rest, a, v =>
    if a < k then Memory.cons a v ((k, u) :: rest)
    else if a = k then Memory.cons a v rest
    else (k, u) :: Memory.write rest a v

/-- The canonical form: addresses rising and inside the space, no entry equal to the default. -/
abbrev Memory.wf (m : Memory) : Prop :=
  m.Pairwise (fun c d => c.1 < d.1) ∧ ∀ c ∈ m, c.1 < 2 ^ 32 ∧ c.2 ≠ Config.cellDefault

/-- `K ∪ {a}`, in rising order. -/
def KeySet.add : KeySet → Nat → KeySet
  | [], a => [a]
  | k :: rest, a => if a < k then a :: k :: rest else if a = k then k :: rest else k :: KeySet.add rest a

/-- The form of a key set: rising, inside the address space. -/
abbrev KeySet.wf (ks : KeySet) : Prop := ks.Pairwise (· < ·) ∧ ∀ k ∈ ks, k < 2 ^ 32

/-- `MemRead(a, 1)`: total, changes nothing, the key set included (`43_load_store.md` R153). -/
def State.memRead (s : State) (a : Word) : Word := s.mem.read a.toNat

/-- `MemWrite(a, 1, v)`: the cell is written and joins the key set, a stored 0 too (R152, R153). -/
def State.memWrite (a v : Word) (s : State) : State :=
  { s with mem := s.mem.write a.toNat v, keys := s.keys.add a.toNat }

/-- `raise F(info)`: set the fault latch, and nothing else (`60_exceptions.md` R204). That the later
sub-steps of the cycle do not run is the sequencer's part (R205). -/
def State.raise (kind : FaultKind) (occupant : Slot) (s : State) : State :=
  { s with latch := some ⟨kind, occupant⟩ }

/-- The CycleRecord that shows a word just fetched (`44_pipeline_sequencer.md` R183). -/
def fetchedRecord (w : Word) : CycleRecord := { Slots.allEmpty with s1 := .raw (.word w) }

/-- The CycleRecord that shows a word just decoded (R183). -/
def decodedRecord (w : Word) : CycleRecord := { Slots.allEmpty with s2 := .dec (.op (decodeWord w)) }

/-- The machine with the registers and data memory of `s`, running the one-word program `[w]`, after the
two cycles that fetch and decode it: the next cycle executes it (R183, `k = 0`; log 7). -/
def State.withWordDecoded (w : Word) (s : State) : State :=
  { s with
    pc := 1#32
    slots := decodedRecord w
    hist := [fetchedRecord w, decodedRecord w]
    retired := []
    latch := none
    imem := [.word w] }

end Sys2Proof.Machine
end

