-- ==== Sys2Proof/Machine/Operands.lean ====
section
/-! DEFINITION. Operand forms: the effective address (`43_load_store.md` R150), and at the record level
the resolution of a pair into an instruction (`41_executor_dispatch.md` R131 to R133). -/

namespace Sys2Proof.Machine

/-- Base register plus offset, modulo 2^32; the base is not modified (R150). -/
def effectiveAddress (s : State) (base : RegIdx) (off : Word) : Word := s.readReg base + off

/-- The value of a decimal digit. -/
def digitValue (c : Char) : Option Nat :=
  if '0' ≤ c ∧ c ≤ '9' then some (c.toNat - 48) else none

/-- Read further decimal digits after a value already read. -/
def decimalFrom (acc : Nat) : Text → Option Nat
  | [] => some acc
  | c :: cs => match digitValue c with
    | some d => decimalFrom (acc * 10 + d) cs
    | none => none

/-- One or more decimal digits (`30_encoding.md` R85). -/
def decimal : Text → Option Nat
  | [] => none
  | c :: cs => decimalFrom 0 (c :: cs)

/-- A decimal number without leading zeros (R83). -/
def decimalNoLeadingZero : Text → Option Nat
  | '0' :: _ :: _ => none
  | t => decimal t

/-- `reg(s)`: `$r<n>` with 0 ≤ n ≤ 31 (R131; `30_encoding.md` R83). -/
def parseReg : Text → Option RegIdx
  | '$' :: 'r' :: ds => match decimalNoLeadingZero ds with
    | some n => if n < 32 then some (BitVec.ofNat 5 n) else none
    | none => none
  | _ => none

/-- The value of an offset as written: an optional minus sign and decimal digits (`30_encoding.md` R85). -/
def offsetValue : Text → Option Int
  | '-' :: ds => (decimal ds).map fun (n : Nat) => -(n : Int)
  | ds => (decimal ds).map fun (n : Nat) => (n : Int)

/-- An offset reduced modulo 2^32 (R131). -/
def parseOffset (t : Text) : Option Word := (offsetValue t).map (BitVec.ofInt 32)

/-- The text before a final closing parenthesis. -/
def beforeClosing (t : Text) : Option Text :=
  if t.getLast? = some ')' then some t.dropLast else none

/-- The two texts of `<offset>(<register>)`, nothing before, between or after (R131). -/
def splitMemOperand (t : Text) : Option (Text × Text) :=
  match splitFirst '(' t with
  | none => none
  | some (offset, rest) => (beforeClosing rest).map fun r => (offset, r)

/-- `memoperand(s)`: the offset modulo 2^32 and the base register (R131). -/
def parseMemOperand (t : Text) : Option (Word × RegIdx) :=
  match splitMemOperand t with
  | none => none
  | some (offset, r) => match parseOffset offset, parseReg r with
    | some off, some base => some (off, base)
    | _, _ => none

/-- The operands of ADD and SUB: the count first, then the shapes (R131). -/
def aluOperands : List Text → Except FaultKind (RegIdx × RegIdx × RegIdx)
  | [a, b, c] => match parseReg a, parseReg b, parseReg c with
    | some rd, some rs, some rt => .ok (rd, rs, rt)
    | _, _, _ => .error .operandFormError
  | _ => .error .operandArityError

/-- The operands of LW and SW: the count first, then the shapes (R131). -/
def memOperands : List Text → Except FaultKind (RegIdx × Word × RegIdx)
  | [a, b] => match parseReg a, parseMemOperand b with
    | some rt, some (off, base) => .ok (rt, off, base)
    | _, _ => .error .operandFormError
  | _ => .error .operandArityError

/-- `resolve(opcode, operands)` of the record level (R131); any other opcode is `Nop`, its operands not
looked at (R134). -/
def resolvePair (opcode : Text) (operands : List Text) : Except FaultKind Instr :=
  if opcode = "ADD".toList then (aluOperands operands).map fun (rd, rs, rt) => .add rd rs rt
  else if opcode = "SUB".toList then (aluOperands operands).map fun (rd, rs, rt) => .sub rd rs rt
  else if opcode = "LW".toList then (memOperands operands).map fun (rt, off, base) => .lw rt off base
  else if opcode = "SW".toList then (memOperands operands).map fun (rt, off, base) => .sw rt off base
  else .ok .unrecognized

/-- What the Executor makes of a decoded instruction: at the word level the `Op` itself (R131). -/
def resolve : Decoded → Except FaultKind Instr
  | .op i => .ok i
  | .pair opcode operands => resolvePair opcode operands

/-- Decoding and resolving one instruction, with the fault it raises and the occupant that would be
latched, where it raises one (`60_exceptions.md` R200). -/
def resolveRaw (i : RawInstr) : Except FaultLatch Instr :=
  match decodeRaw i with
  | .error kind => .error ⟨kind, .raw i⟩
  | .ok d => match resolve d with
    | .error kind => .error ⟨kind, .dec d⟩
    | .ok op => .ok op

/-- The offset of a memory operand, as written, fits the 16-bit field: it lies in -32768 .. 32767 before
any reduction (`30_encoding.md` R101 b). -/
def writtenOffsetFits (t : Text) : Bool :=
  match splitMemOperand t with
  | none => false
  | some (offset, _) => match offsetValue offset with
    | none => false
    | some v => decide (-32768 ≤ v ∧ v ≤ 32767)

/-- The second operand of a pair holds an offset that fits the 16-bit field. -/
def pairOffsetFits : Decoded → Bool
  | .pair _ [_, b] => writtenOffsetFits b
  | _ => false

/-- The word of a resolved record, where it has one: LW and SW need an offset that fits as written. -/
def wordOfResolved (d : Decoded) : Instr → Option Word
  | .lw rt off base => if pairOffsetFits d then some (encode (.lw rt off base)) else none
  | .sw rt off base => if pairOffsetFits d then some (encode (.sw rt off base)) else none
  | .add rd rs rt => some (encode (.add rd rs rt))
  | .sub rd rs rt => some (encode (.sub rd rs rt))
  | .unrecognized => some (encode .unrecognized)

/-- The word of a record, where it has one (`30_encoding.md` R100, R101). -/
def assemble (t : Text) : Option Word :=
  match decodeRecord t with
  | .error _ => none
  | .ok d => match resolve d with
    | .error _ => none
    | .ok i => wordOfResolved d i

end Sys2Proof.Machine
end

