-- ==== Sys2Proof/Machine/Alu.lean ====
section
/-! DEFINITION. ADD and SUB (`42_alu_add_sub.md`). -/

namespace Sys2Proof.Machine

/-- The sum modulo 2^32; overflow is not detected (R140). -/
def aluAdd (a b : Word) : Word := a + b

/-- The difference modulo 2^32; overflow is not detected (R140). -/
def aluSub (a b : Word) : Word := a - b

/-- `x[rd] <- (x[rs] + x[rt]) mod 2^32` (R141), sources read before the write (`41_executor_dispatch.md`
R136). -/
def execAdd (rd rs rt : RegIdx) (s : State) : Host.Outcome State Fault Refusal :=
  .next (s.writeReg rd (aluAdd (s.readReg rs) (s.readReg rt)))

/-- `x[rd] <- (x[rs] - x[rt]) mod 2^32` (R142). -/
def execSub (rd rs rt : RegIdx) (s : State) : Host.Outcome State Fault Refusal :=
  .next (s.writeReg rd (aluSub (s.readReg rs) (s.readReg rt)))

end Sys2Proof.Machine
end

