-- ==== Sys2Proof/Machine/LoadStore.lean ====
section
/-! DEFINITION. LW and SW (`43_load_store.md`): one addressing mode, one whole cell. -/

namespace Sys2Proof.Machine

/-- `x[rt] <- M(ea)`, 0 for a cell never written; memory and key set untouched (R151). -/
def execLw (rt : RegIdx) (off : Word) (base : RegIdx) (s : State) : Host.Outcome State Fault Refusal :=
  .next (s.writeReg rt (s.memRead (effectiveAddress s base off)))

/-- `M(ea) <- x[rt]`, `K <- K ∪ {ea}` (R152). -/
def execSw (rt : RegIdx) (off : Word) (base : RegIdx) (s : State) : Host.Outcome State Fault Refusal :=
  .next (s.memWrite (effectiveAddress s base off) (s.readReg rt))

end Sys2Proof.Machine
end

