-- ==== Sys2Proof/Machine/Unrecognized.lean ====
section
/-! DEFINITION. The unrecognized instruction `Nop` (`41_executor_dispatch.md` R134). -/

namespace Sys2Proof.Machine

/-- Nothing: no register, no cell, no key, no fault (R134; not a fault, `60_exceptions.md` R210). -/
def execUnrecognized (s : State) : Host.Outcome State Fault Refusal := .next s

end Sys2Proof.Machine
end

