-- ==== Sys2Proof/Machine/Dispatch.lean ====
section
/-! DEFINITION. The Executor's dispatch, closed over the five cases (`41_executor_dispatch.md` R138). -/

namespace Sys2Proof.Machine

def exec (i : Instr) (s : State) : Host.Outcome State Fault Refusal :=
  match i with
  | .add rd rs rt => Sys2Proof.Machine.execAdd rd rs rt s
  | .sub rd rs rt => Sys2Proof.Machine.execSub rd rs rt s
  | .lw rt off base => Sys2Proof.Machine.execLw rt off base s
  | .sw rt off base => Sys2Proof.Machine.execSw rt off base s
  | .unrecognized => Sys2Proof.Machine.execUnrecognized s

end Sys2Proof.Machine
end

