-- ==== Sys2Proof/Machine/Flags.lean ====
section
/-! DEFINITION. The hardware has no status flags, condition codes or control registers: no instruction
computes one (`10_state.md` R26, R27). What it has is host-visible status, here as functions of the
state (R27). -/

namespace Sys2Proof.Machine

/-- Every slot is empty (`44_pipeline_sequencer.md` R178). -/
def Slots.isEmpty (sl : Slots) : Bool := sl == Slots.allEmpty

/-- `halted`: every slot empty and `pc = N` (R178, which notes that `pc ≥ N` is the same). -/
def State.halted (s : State) : Bool := s.slots.isEmpty && s.pc.toNat == s.programLength

/-- A fault is latched (`10_state.md` R33). -/
def State.faulted (s : State) : Bool := s.latch.isSome

/-- `busy`: neither halted nor faulted (`70_reset_and_hazards.md` R237). -/
def State.busy (s : State) : Bool := !s.halted && !s.faulted

/-- `cycle`: the number of completed cycles (`10_state.md` R27). -/
def State.cycleCount (s : State) : Nat := s.hist.length

/-- The number of retired instructions (`60_exceptions.md` R214). -/
def State.retiredCount (s : State) : Nat := s.retired.length

/-- `fault_code`, 0 for none (`60_exceptions.md` R200). -/
def State.faultCode (s : State) : BitVec 2 :=
  match s.latch with
  | none => 0#2
  | some f => f.kind.code

end Sys2Proof.Machine
end

