-- ==== Sys2Proof/Machine/Sequencer.lean ====
section
/-! DEFINITION. The six sub-steps of one cycle and the cycle itself (`44_pipeline_sequencer.md` R171 to
R177), with the abort of `60_exceptions.md` R204, R205. An occupant of the wrong kind is passed over, as
the pseudocode's patterns say (log 5). -/

namespace Sys2Proof.Machine

/-- The Executor's write-back operation: a deliberate no-op for every instruction
(`41_executor_dispatch.md` R135). -/
def writebackNoop (_ : Decoded) (s : State) : State := s

/-- Sub-step 1, Write-back (R172). -/
def writeBackStage (s : State) : State :=
  match s.slots.s4 with
  | .dec d =>
    let t := writebackNoop d s
    { t with retired := t.retired ++ [d], slots := { t.slots with s4 := .empty } }
  | _ => s

/-- Sub-step 2, Memory-access (R173): moves the occupant and touches no data. -/
def memoryAccessStage (s : State) : State :=
  match s.slots.s3 with
  | .dec d => { s with slots := { s.slots with s3 := .empty, s4 := .dec d } }
  | _ => s

/-- The move of an executed occupant from slot 2 to slot 3 (R174). -/
def State.moveExecuted (d : Decoded) (s : State) : State :=
  { s with slots := { s.slots with s2 := .empty, s3 := .dec d } }

/-- Sub-step 3, Execute (R174): the only place where registers, data memory and key set change. An
operand fault is raised before any read, and the slots are then left as they are (R131, R136). -/
def executeStage (s : State) : Host.Outcome State Fault Refusal :=
  match s.slots.s2 with
  | .dec d => match resolve d with
    | .error kind => .next (s.raise kind (.dec d))
    | .ok i => match exec i s with
      | .next t => .next (t.moveExecuted d)
      | .fault f => .fault f
      | .refused r => .refused r
  | _ => .next s

/-- Sub-step 4, Decode (R175). On a FormatError the slots are left as they are. -/
def decodeStage (s : State) : State :=
  match s.slots.s1 with
  | .raw i => match decodeRaw i with
    | .error kind => s.raise kind (.raw i)
    | .ok d => { s with slots := { s.slots with s1 := .empty, s2 := .dec d } }
  | _ => s

/-- Sub-step 5, Fetch (R176): while `pc < N`, the instruction at `pc` goes straight into slot 1. -/
def fetchStage (s : State) : State :=
  match s.imem[s.pc.toNat]? with
  | some i => { s with slots := { s.slots with s1 := .raw i }, pc := s.pc + 1#32 }
  | none => s

/-- Sub-step 6, Record (R177). -/
def recordStage (s : State) : State := { s with hist := s.hist ++ [s.slots] }

/-- Sub-steps 4 to 6, ending at the raise of a FormatError (`60_exceptions.md` R205). -/
def frontEnd (s : State) : State :=
  let t := decodeStage s
  if t.faulted then t else recordStage (fetchStage t)

/-- One cycle of a machine with no fault latched: the six sub-steps in order, ending at the first raise
(R171; `60_exceptions.md` R205). -/
def cycle (s : State) : Host.Outcome State Fault Refusal :=
  match executeStage (memoryAccessStage (writeBackStage s)) with
  | .next t => if t.faulted then .next t else .next (frontEnd t)
  | .fault f => .fault f
  | .refused r => .refused r

end Sys2Proof.Machine
end

