-- ==== Sys2Proof/Machine/Step.lean ====
section
/-! DEFINITION. One step of the machine, and the placing of an instruction for the next step. -/

namespace Sys2Proof.Machine

/-- One clock cycle: a cycle step while busy, nothing once halted or faulted
(`44_pipeline_sequencer.md` R178, R179). -/
def step (s : State) : Host.Outcome State Fault Refusal :=
  if s.busy then cycle s else .next s

/-- The machine about to execute the word whose bits are `w` as the first instruction of a one-word
program (log 7). -/
def State.withFetchWord (s : State) (nbits w : Nat) : State := s.withWordDecoded (tableWord nbits w)

end Sys2Proof.Machine
end

