-- ==== Sys2Proof/Machine/HostInterface.lean ====
section
/-! DEFINITION. What the host does and sees: reset, launch, the end state, the ports
(`70_reset_and_hazards.md` R230 to R237; `10_state.md` R40, R41). No step uses this file. -/

namespace Sys2Proof.Machine

/-- No cycle has run yet, so the host may still load and preload (R236; log 9). -/
def State.beforeCycleOne (s : State) : Bool := s.hist.isEmpty && !s.faulted

/-- The host supplies the program, of fewer than 2^32 instructions (R232 step 2; `00_scope.md` R9). -/
def State.loadProgram (program : List RawInstr) (s : State) : Option State :=
  if s.beforeCycleOne && program.length < Config.programLimit then some { s with imem := program } else none

/-- The host preloads one register (`10_state.md` R40). -/
def State.preloadReg (r : RegIdx) (v : Word) (s : State) : Option State :=
  if s.beforeCycleOne then some (s.writeReg r v) else none

/-- The host preloads one data cell, which joins the key set (R40). -/
def State.preloadCell (a v : Word) (s : State) : Option State :=
  if s.beforeCycleOne then some (s.memWrite a v) else none

/-- Preload the registers listed, in order. -/
def State.preloadRegs : List (RegIdx × Word) → State → State
  | [], s => s
  | (r, v) :: rest, s => State.preloadRegs rest (s.writeReg r v)

/-- Preload the data cells listed, in order. -/
def State.preloadCells : List (Word × Word) → State → State
  | [], s => s
  | (a, v) :: rest, s => State.preloadCells rest (s.memWrite a v)

/-- The launch state: reset, with the program supplied and the preloads made (R232 steps 1 to 3). -/
def launch (program : List RawInstr) (regInit : List (RegIdx × Word)) (memInit : List (Word × Word)) :
    Option State :=
  (State.reset.loadProgram program).map fun s =>
    State.preloadCells memInit (State.preloadRegs regInit s)

/-- One rising clock edge with the reset pin (R237): synchronous reset, else one step (log 10). -/
def clockEdge (rst : Bool) (s : State) : Host.Outcome State Fault Refusal :=
  if rst then .next State.reset else step s

/-- The data memory's final mapping: the entries of `K` with their values (`10_state.md` R36, R41). -/
def State.memoryMapping (s : State) : List (Nat × Word) := s.keys.map fun a => (a, s.mem.read a)

/-- A final run has ended: halted with no fault latched (`44_pipeline_sequencer.md` R178). -/
def State.final (s : State) : Bool := s.halted && !s.faulted

/-- The data port during the Execute sub-step (R237). -/
structure DataPort where
  /-- `dmem_addr`. -/
  addr : Word
  /-- `dmem_we`. -/
  we : Bool
  /-- `dmem_wdata`. R237 gives it for SW only; that a load shows no value on it is the model's choice
  (DESIGN CHOICE, log 11). -/
  wdata : Option Word
  deriving DecidableEq, Repr

/-- The data access of the cycle about to run, where its Execute sub-step makes one (R237). What R237
leaves open is the model's choice: nothing is shown without an access, and no write data on a load
(DESIGN CHOICE, log 11). -/
def State.dataPort (s : State) : Option DataPort :=
  match s.busy, s.slots.s2 with
  | true, .dec d => match resolve d with
    | .ok (.lw _ off base) => some ⟨effectiveAddress s base off, false, none⟩
    | .ok (.sw rt off base) => some ⟨effectiveAddress s base off, true, some (s.readReg rt)⟩
    | _ => none
  | _, _ => none

/-- `imem_addr`, valid while `pc < N` (R237). -/
def State.imemAddr (s : State) : Option Word :=
  if s.pc.toNat < s.programLength then some s.pc else none

/-- `trace_slot[0..4]`: the CycleRecord of the cycle just completed (R237). -/
def State.tracePort (s : State) : Option CycleRecord := s.hist.getLast?

/-- `retire_valid` and `retire_instr` of the cycle about to run: what its Write-back sub-step retires
(R237; log 11). -/
def State.retirePort (s : State) : Option Decoded :=
  match s.busy, s.slots.s4 with
  | true, .dec d => some d
  | _, _ => none

end Sys2Proof.Machine
end

