-- ==== Sys2Proof/Safety.lean ====
section
/-! DEFINITION. The terms claims use: the invariants of the state, launch states, the
one-instruction-at-a-time reference machine and the position of every instruction in the pipeline. -/

namespace Sys2Proof.Machine

/-- Slot content allowed in slot 1 (`10_state.md` R30). -/
def Slot.emptyOrRaw : Slot → Bool
  | .empty => true
  | .raw _ => true
  | .dec _ => false

/-- Slot content allowed in slots 2, 3 and 4 (R30). -/
def Slot.emptyOrDec : Slot → Bool
  | .empty => true
  | .raw _ => false
  | .dec _ => true

/-- The decoded occupant of a slot, as a list of at most one. -/
def Slot.decodedOccupant : Slot → List Decoded
  | .dec d => [d]
  | .raw _ => []
  | .empty => []

/-- Slot typing (R30): slot 0 is never populated, slot 1 holds raw instructions, the others decoded ones. -/
def Slots.typed (sl : Slots) : Prop :=
  sl.s0 = .empty ∧ sl.s1.emptyOrRaw ∧ sl.s2.emptyOrDec ∧ sl.s3.emptyOrDec ∧ sl.s4.emptyOrDec

/-- Data memory and key set are in their canonical forms, and every cell that does not hold the default
is materialised (`10_state.md` R36). -/
def State.memoryWf (s : State) : Prop :=
  s.mem.wf ∧ s.keys.wf ∧ ∀ c ∈ s.mem, c.1 ∈ s.keys

/-- The program fits `pc`, and `pc` never exceeds N (`10_state.md` R25). -/
def State.pcWf (s : State) : Prop :=
  s.programLength < Config.programLimit ∧ s.pc.toNat ≤ s.programLength

/-- The invariant of the machine between cycles. -/
structure State.Inv (s : State) : Prop where
  memory : s.memoryWf
  pc : s.pcWf
  slots : s.slots.typed
  history : ∀ r ∈ s.hist, Slots.typed r

/-- A raw instruction of the word level. -/
def RawInstr.isWord : RawInstr → Bool
  | .word _ => true
  | .record _ => false

/-- A slot content of the word level. -/
def Slot.wordLevel : Slot → Bool
  | .empty => true
  | .raw i => RawInstr.isWord i
  | .dec (.op _) => true
  | .dec (.pair _ _) => false

/-- The machine runs a word-level program (`00_scope.md` R6). -/
def State.wordLevel (s : State) : Prop :=
  (∀ i ∈ s.imem, RawInstr.isWord i) ∧ s.slots.s1.wordLevel ∧ s.slots.s2.wordLevel

/-- A launch state (`10_state.md` R40): any registers, data memory, key set and program. -/
structure State.Launched (s : State) : Prop where
  pc : s.pc = 0#32
  slots : s.slots = Slots.allEmpty
  hist : s.hist = []
  retired : s.retired = []
  latch : s.latch = none
  fits : s.programLength < Config.programLimit

/-- Every piece of state that the spec gives a reset value has it (`10_state.md` R39). -/
structure State.AtResetValues (s : State) : Prop where
  regs : ∀ r, s.readReg r = 0#32
  pc : s.pc = 0#32
  slots : s.slots.s0 = .empty ∧ s.slots.s1 = .empty ∧ s.slots.s2 = .empty ∧ s.slots.s3 = .empty ∧
    s.slots.s4 = .empty
  hist : s.hist = []
  retired : s.retired = []
  latch : s.latch = none
  mem : ∀ a, s.memRead a = 0#32
  keys : s.keys = []

/-- The value that the last preload of a register or cell gives it, 0 where none names it. -/
def lastPreload {α : Type} [DecidableEq α] : List (α × Word) → α → Word
  | [], _ => 0#32
  | (b, v) :: rest, a =>
    if rest.any (fun c => decide (c.1 = a)) then lastPreload rest a else if b = a then v else 0#32

/-- Two states agree on what the Executor may change: registers, data memory, key set. -/
def SameData (s t : State) : Prop := s.regs = t.regs ∧ s.mem = t.mem ∧ s.keys = t.keys

/-- The data memory, key set, pipeline and program of two states agree: all but the registers. -/
def SameButRegs (s t : State) : Prop :=
  t.mem = s.mem ∧ t.keys = s.keys ∧ t.pc = s.pc ∧ t.slots = s.slots ∧ t.hist = s.hist ∧
    t.retired = s.retired ∧ t.latch = s.latch ∧ t.imem = s.imem

/-- The registers, pipeline and program of two states agree: all but data memory and key set. -/
def SameButMemory (s t : State) : Prop :=
  t.regs = s.regs ∧ t.pc = s.pc ∧ t.slots = s.slots ∧ t.hist = s.hist ∧
    t.retired = s.retired ∧ t.latch = s.latch ∧ t.imem = s.imem

/-- `n` steps, stopping at the first outcome that is no next state. -/
def runFor : Nat → State → Host.Outcome State Fault Refusal
  | 0, s => .next s
  | n + 1, s => match step s with
    | .next t => runFor n t
    | .fault f => .fault f
    | .refused r => .refused r

/-- One instruction on the sequential machine (`44_pipeline_sequencer.md` R189). -/
def seqExec (i : RawInstr) (s : State) : State :=
  match resolveRaw i with
  | .error _ => s
  | .ok op => match exec op s with
    | .next t => t
    | .fault _ => s
    | .refused _ => s

/-- The sequential machine over a list of instructions. -/
def seqRun : List RawInstr → State → State
  | [], s => s
  | i :: rest, s => seqRun rest (seqExec i s)

/-- `seq_j`: the launch state after the first `j` instructions of the program, one at a time (R189). -/
def seqAfter (j : Nat) (s : State) : State := seqRun (s.imem.take j) s

/-- The instruction decodes and resolves: it raises no fault (`60_exceptions.md` R200). -/
def raisesNothing (i : RawInstr) : Bool :=
  match resolveRaw i with
  | .ok _ => true
  | .error _ => false

/-- Instruction `k` raw, `Empty` beyond the program. -/
def rawAt (program : List RawInstr) (k : Nat) : Slot :=
  match program[k]? with
  | some i => .raw i
  | none => .empty

/-- Instruction `k` decoded, `Empty` beyond the program or where the record does not decode. -/
def decodedAt (program : List RawInstr) (k : Nat) : Slot :=
  match program[k]? with
  | some i => match decodeRaw i with
    | .ok d => .dec d
    | .error _ => .empty
  | none => .empty

/-- CycleRecord `c` of a fault-free run (`44_pipeline_sequencer.md` R183). -/
def recordAt (program : List RawInstr) (c : Nat) : CycleRecord where
  s0 := .empty
  s1 := if 1 ≤ c then rawAt program (c - 1) else .empty
  s2 := if 2 ≤ c then decodedAt program (c - 2) else .empty
  s3 := if 3 ≤ c then decodedAt program (c - 3) else .empty
  s4 := if 4 ≤ c then decodedAt program (c - 4) else .empty

/-- The decoded forms of a list of instructions, those that do not decode left out. -/
def decodedAll : List RawInstr → List Decoded
  | [] => []
  | i :: rest => match decodeRaw i with
    | .ok d => d :: decodedAll rest
    | .error _ => decodedAll rest

/-- The one register that an instruction may change (`10_state.md` R22). -/
def destination : Instr → Option RegIdx
  | .add rd _ _ => some rd
  | .sub rd _ _ => some rd
  | .lw rt _ _ => some rt
  | .sw _ _ _ => none
  | .unrecognized => none

/-- The state stands where `c` cycles of a fault-free run of its program leave it, its registers and
data memory aside (R181, R183). -/
structure State.AtCycle (c : Nat) (s : State) : Prop where
  slots : s.slots = recordAt s.imem c
  pc : s.pc.toNat = min s.programLength c
  hist : s.hist = (List.range c).map fun j => recordAt s.imem (j + 1)
  retired : s.retired = decodedAll (s.imem.take (c - 4))
  latch : s.latch = none

end Sys2Proof.Machine
end

