-- ==== Sys2Proof/Certificates/Slice0/Obligations.lean ====
section
/-! DEFINITION. The statements for the provers. Each docstring names the rule of spec/ it formalises. -/

open Sys2Proof Sys2Proof.Machine

/-! Reset and launch. -/

/-- R39, R230: reset leaves every piece of state at its tabulated value, from any state. -/
def Obligations.ResetLeavesTabulatedValues : Prop :=
  State.reset.AtResetValues ∧ ∀ s, ∃ t, clockEdge true s = .next t ∧ t.AtResetValues

/-- R25, R30, R36: the invariant holds after reset. -/
def Obligations.ResetMeetsInvariant : Prop := State.reset.Inv

/-- R40, R232: a launch is reset with the program supplied and the preloads made. The bound on the
program is R9's; that a later preload of the same place wins is the model's (log 9). -/
def Obligations.LaunchIsResetWithPreloads : Prop :=
  ∀ (program : List RawInstr) (regInit : List (RegIdx × Word)) (memInit : List (Word × Word)),
    program.length < Config.programLimit →
    ∃ s, launch program regInit memInit = some s ∧ s.Launched ∧ s.Inv ∧ s.imem = program ∧
      (∀ r, s.readReg r = lastPreload regInit r) ∧
      (∀ a, s.memRead a = lastPreload memInit a) ∧
      (∀ k, k ∈ s.keys ↔ ∃ c ∈ memInit, c.1.toNat = k)

/-- R236: after a completed cycle the host can no longer load or preload (log 9). -/
def Obligations.HostLoadsOnlyBeforeCycleOne : Prop :=
  ∀ s t, s.busy = true → step s = .next t →
    (∀ p, t.loadProgram p = none) ∧ (∀ r v, t.preloadReg r v = none) ∧
      (∀ a v, t.preloadCell a v = none)

/-! Instructions. -/

/-- R21: no register is hardwired, register 0 included: whatever instruction names a register as its
destination changes it, and a later read returns the value written. -/
def Obligations.NoRegisterIsHardwired : Prop :=
  ∀ (r : RegIdx) (s : State),
    (∀ rs rt, ∃ t, exec (.add r rs rt) s = .next t ∧ t.readReg r = s.readReg rs + s.readReg rt) ∧
    (∀ rs rt, ∃ t, exec (.sub r rs rt) s = .next t ∧ t.readReg r = s.readReg rs - s.readReg rt) ∧
    (∀ off base, ∃ t, exec (.lw r off base) s = .next t ∧
      t.readReg r = s.memRead (s.readReg base + off))

/-- R140: sum and difference are the true ones reduced modulo 2^32, read as unsigned or as signed; within
the signed range they are the true ones; the destination is always written and nothing traps. No other
arithmetic instruction exists. -/
def Obligations.ArithmeticWraps : Prop :=
  (∀ i : Instr, i.mnemonic ∈ ["ADD", "SUB", "LW", "SW", "UNRECOGNIZED"]) ∧
  ∀ (rd rs rt : RegIdx) (s : State), ∃ t u,
    exec (.add rd rs rt) s = .next t ∧ exec (.sub rd rs rt) s = .next u ∧
    t.latch = s.latch ∧ u.latch = s.latch ∧
    (t.readReg rd).toNat = ((s.readReg rs).toNat + (s.readReg rt).toNat) % 2 ^ 32 ∧
    ((u.readReg rd).toNat : Int) = ((s.readReg rs).toNat - (s.readReg rt).toNat : Int) % 2 ^ 32 ∧
    (t.readReg rd).toInt = ((s.readReg rs).toInt + (s.readReg rt).toInt).bmod (2 ^ 32) ∧
    (u.readReg rd).toInt = ((s.readReg rs).toInt - (s.readReg rt).toInt).bmod (2 ^ 32) ∧
    (-2 ^ 31 ≤ (s.readReg rs).toInt + (s.readReg rt).toInt →
      (s.readReg rs).toInt + (s.readReg rt).toInt < 2 ^ 31 →
      (t.readReg rd).toInt = (s.readReg rs).toInt + (s.readReg rt).toInt) ∧
    (-2 ^ 31 ≤ (s.readReg rs).toInt - (s.readReg rt).toInt →
      (s.readReg rs).toInt - (s.readReg rt).toInt < 2 ^ 31 →
      (u.readReg rd).toInt = (s.readReg rs).toInt - (s.readReg rt).toInt)

/-- R141: ADD completes with the sum in `rd`, every other register, every cell and all other state kept. -/
def Obligations.AddWritesSumOnly : Prop :=
  ∀ (rd rs rt : RegIdx) (s : State), ∃ t, exec (.add rd rs rt) s = .next t ∧
    t.readReg rd = s.readReg rs + s.readReg rt ∧ (∀ r, r ≠ rd → t.readReg r = s.readReg r) ∧
    (∀ a, t.memRead a = s.memRead a) ∧ SameButRegs s t

/-- R142: SUB completes with the first source minus the second in `rd`, everything else kept. -/
def Obligations.SubWritesDifferenceOnly : Prop :=
  ∀ (rd rs rt : RegIdx) (s : State), ∃ t, exec (.sub rd rs rt) s = .next t ∧
    t.readReg rd = s.readReg rs - s.readReg rt ∧ (∀ r, r ≠ rd → t.readReg r = s.readReg r) ∧
    (∀ a, t.memRead a = s.memRead a) ∧ SameButRegs s t

/-- R151: LW completes with the cell at base plus offset in `rt`, everything else kept. -/
def Obligations.LwLoadsCellOnly : Prop :=
  ∀ (rt : RegIdx) (off : Word) (base : RegIdx) (s : State), ∃ t, exec (.lw rt off base) s = .next t ∧
    t.readReg rt = s.memRead (s.readReg base + off) ∧ (∀ r, r ≠ rt → t.readReg r = s.readReg r) ∧
    (∀ a, t.memRead a = s.memRead a) ∧ SameButRegs s t

/-- R152, R153: SW completes with the register in the cell at base plus offset, that address in the key
set, and every other cell, every register and all other state kept. -/
def Obligations.SwStoresCellOnly : Prop :=
  ∀ (rt : RegIdx) (off : Word) (base : RegIdx) (s : State), s.memoryWf →
    ∃ t, exec (.sw rt off base) s = .next t ∧
      t.memRead (effectiveAddress s base off) = s.readReg rt ∧
      (∀ a, a ≠ effectiveAddress s base off → t.memRead a = s.memRead a) ∧
      (∀ k, k ∈ t.keys ↔ k = (effectiveAddress s base off).toNat ∨ k ∈ s.keys) ∧
      (∀ r, t.readReg r = s.readReg r) ∧ SameButMemory s t ∧ t.memoryWf

/-- R82, R96, R134: every other word and every record with another opcode is the unrecognized
instruction, whatever its operands, and that instruction completes and changes nothing at all. -/
def Obligations.UnrecognizedDoesNothing : Prop :=
  (∀ s, exec .unrecognized s = .next s) ∧
  (∀ w, (∀ row ∈ opcodeRows, row.selects w = false) → decodeWord w = .unrecognized) ∧
  (∀ opcode operands,
    opcode ∉ ["ADD".toList, "SUB".toList, "LW".toList, "SW".toList] →
      resolve (.pair opcode operands) = .ok .unrecognized)

/-- R66, R150: the address is the sum of base and offset modulo 2^32, with R66's two examples. Wrapping is
the spec's decision D6. -/
def Obligations.EffectiveAddressWraps : Prop :=
  (∀ (s : State) (base : RegIdx) (off : Word),
    (effectiveAddress s base off).toNat = ((s.readReg base).toNat + off.toNat) % 2 ^ 32) ∧
  (∀ (s : State) (base : RegIdx), s.readReg base = 0#32 →
    effectiveAddress s base (BitVec.ofInt 32 (-1)) = 0xFFFFFFFF#32) ∧
  (∀ (s : State) (base : RegIdx), s.readReg base = 0xFFFFFFFC#32 →
    effectiveAddress s base 8#32 = 0x00000004#32)

/-- R150: the one addressing mode. Loads and stores use base plus offset modulo 2^32 as it is, for every
address, and keep the base register; a word's offset is its sign-extended field, a record's its decimal
value reduced modulo 2^32. -/
def Obligations.AddressIsBasePlusOffset : Prop :=
  (∀ (rt : RegIdx) (off : Word) (base : RegIdx) (s : State), ∃ t, exec (.lw rt off base) s = .next t ∧
    t.readReg rt = s.memRead (s.readReg base + off) ∧ (base ≠ rt → t.readReg base = s.readReg base)) ∧
  (∀ (rt : RegIdx) (off : Word) (base : RegIdx) (s : State), s.memoryWf →
    ∃ t, exec (.sw rt off base) s = .next t ∧ t.memRead (s.readReg base + off) = s.readReg rt ∧
      (∀ a, a ≠ s.readReg base + off → t.memRead a = s.memRead a) ∧
      t.readReg base = s.readReg base) ∧
  (∀ (w : Word) (rt : RegIdx) (off : Word) (base : RegIdx),
    decodeWord w = .lw rt off base ∨ decodeWord w = .sw rt off base →
      off = (w.extractLsb' 0 16).signExtend 32) ∧
  (∀ (digits : Text) (n : Nat) (rt base : RegIdx), decimal digits = some n →
    resolve (.pair "LW".toList [regText rt, digits ++ ['('] ++ regText base ++ [')']]) =
      .ok (.lw rt (BitVec.ofNat 32 n) base) ∧
    resolve (.pair "SW".toList [regText rt, digits ++ ['('] ++ regText base ++ [')']]) =
      .ok (.sw rt (BitVec.ofNat 32 n) base) ∧
    resolve (.pair "LW".toList [regText rt, '-' :: digits ++ ['('] ++ regText base ++ [')']]) =
      .ok (.lw rt (BitVec.ofInt 32 (-(n : Int))) base) ∧
    resolve (.pair "SW".toList [regText rt, '-' :: digits ++ ['('] ++ regText base ++ [')']]) =
      .ok (.sw rt (BitVec.ofInt 32 (-(n : Int))) base))

/-- R153: the memory primitives in full, and that a load uses the one, a store the other, and no other
instruction depends on or changes data memory or key set. -/
def Obligations.MemoryPrimitives : Prop :=
  (∀ (s : State) (a : Word), s.memoryWf → a.toNat ∉ s.keys → s.memRead a = 0#32) ∧
  (∀ (s : State) (a v : Word), s.memoryWf →
    (s.memWrite a v).memRead a = v ∧
    (∀ b, b ≠ a → (s.memWrite a v).memRead b = s.memRead b) ∧
    (∀ k, k ∈ (s.memWrite a v).keys ↔ k ∈ s.keys ∨ k = a.toNat)) ∧
  (∀ (rt : RegIdx) (off : Word) (base : RegIdx) (s : State), ∃ t, exec (.lw rt off base) s = .next t ∧
    t.readReg rt = s.memRead (effectiveAddress s base off) ∧ t.mem = s.mem ∧ t.keys = s.keys) ∧
  (∀ (rt : RegIdx) (off : Word) (base : RegIdx) (s : State),
    exec (.sw rt off base) s = .next (s.memWrite (effectiveAddress s base off) (s.readReg rt))) ∧
  (∀ (i : Instr) (s : State) (m : Memory) (ks : KeySet),
    (∀ rt off base, i ≠ .lw rt off base ∧ i ≠ .sw rt off base) →
    ∃ t u, exec i s = .next t ∧ exec i { s with mem := m, keys := ks } = .next u ∧
      t.mem = s.mem ∧ t.keys = s.keys ∧ u = { t with mem := m, keys := ks })

/-- R136: sources are read before the one destination is written, and a faulting instruction has written
nothing. The last clause is what the spec calls its own reading of 'fail ... at the point of use'. -/
def Obligations.SourcesReadBeforeWrite : Prop :=
  (∀ (s : State) (r q : RegIdx),
    (∃ t, exec (.add r r r) s = .next t ∧ t.readReg r = s.readReg r + s.readReg r) ∧
    (∃ t, exec (.add r r q) s = .next t ∧ t.readReg r = s.readReg r + s.readReg q) ∧
    (∃ t, exec (.add r q r) s = .next t ∧ t.readReg r = s.readReg q + s.readReg r) ∧
    (∃ t, exec (.sub r r q) s = .next t ∧ t.readReg r = s.readReg r - s.readReg q) ∧
    (∃ t, exec (.sub r q r) s = .next t ∧ t.readReg r = s.readReg q - s.readReg r)) ∧
  (∀ (s : State) (r : RegIdx) (off : Word), ∃ t, exec (.lw r off r) s = .next t ∧
    t.readReg r = s.memRead (s.readReg r + off)) ∧
  (∀ (s : State) (r : RegIdx) (off : Word), s.mem.wf → ∃ t, exec (.sw r off r) s = .next t ∧
    t.memRead (s.readReg r + off) = s.readReg r) ∧
  (∀ (s t : State) (d : Decoded) (k : FaultKind), s.slots.s2 = .dec d → resolve d = .error k →
    executeStage s = .next t → SameData s t)

/-- R58: every load succeeds, whatever its address, and faults nothing; a cell nothing has written reads
as 0 and the read adds no key. -/
def Obligations.UnwrittenCellReadsZero : Prop :=
  (∀ (rt : RegIdx) (off : Word) (base : RegIdx) (s : State),
    ∃ t, exec (.lw rt off base) s = .next t ∧ t.latch = s.latch ∧
      t.readReg rt = s.memRead (effectiveAddress s base off)) ∧
  ∀ (rt : RegIdx) (off : Word) (base : RegIdx) (s : State), s.memoryWf →
    (effectiveAddress s base off).toNat ∉ s.keys →
    ∃ t, exec (.lw rt off base) s = .next t ∧ t.readReg rt = 0#32 ∧ t.keys = s.keys ∧ t.mem = s.mem

/-- R241: a load directly after a store to the same address returns the stored value; a store directly
after a load stores the register value then current. The spec marks R241 [derived]. -/
def Obligations.StoreAndLoadBackToBack : Prop :=
  (∀ (rt q : RegIdx) (off off' : Word) (base base' : RegIdx) (s t : State), s.memoryWf →
    exec (.sw rt off base) s = .next t → effectiveAddress t base' off' = effectiveAddress s base off →
    ∃ u, exec (.lw q off' base') t = .next u ∧ u.readReg q = s.readReg rt) ∧
  (∀ (rt q : RegIdx) (off off' : Word) (base base' : RegIdx) (s t : State), s.memoryWf →
    exec (.lw rt off base) s = .next t →
    ∃ u, exec (.sw q off' base') t = .next u ∧
      u.memRead (effectiveAddress t base' off') = t.readReg q)

/-- R130: every instruction completes, what it does to registers, data memory and key set depends on
these alone, and it writes nothing else. -/
def Obligations.ExecutorReadsAndWritesDataOnly : Prop :=
  ∀ (i : Instr) (s t : State), SameData s t →
    ∃ s' t', exec i s = .next s' ∧ exec i t = .next t' ∧ SameData s' t' ∧
      s'.pc = s.pc ∧ s'.slots = s.slots ∧ s'.hist = s.hist ∧ s'.retired = s.retired ∧
      s'.latch = s.latch ∧ s'.imem = s.imem

/-! Encoding and decoding. -/

/-- R88 to R94, R97: decoding the word of a well-formed instruction gives it back. The word layout is the
spec's decision D8, and it marks R126 [derived]. -/
def Obligations.DecodeOfEncode : Prop :=
  ∀ i : Instr, i.wellFormed = true → decodeWord (encode i) = i

/-- R88 to R96: a word that is one of the four instructions is the word of what it decodes to, and every
decoded instruction is well formed. The word layout is the spec's decision D8, and it marks R95 and R126
[derived]. -/
def Obligations.EncodeOfDecode : Prop :=
  ∀ w : Word, (decodeWord w).wellFormed = true ∧
    (decodeWord w ≠ .unrecognized → encode (decodeWord w) = w)

/-- R95: no word selects two rows; the Decoder follows the row selected, and no row means unrecognized.
The spec marks R95 [derived]. -/
def Obligations.OpcodeRowsDisjoint : Prop :=
  (∀ w, ∀ r₁ ∈ opcodeRows, ∀ r₂ ∈ opcodeRows,
    r₁.selects w = true → r₂.selects w = true → r₁ = r₂) ∧
  (∀ w, ∀ row ∈ opcodeRows, (row.selects w = true ↔ (decodeWord w).mnemonic = row.mnemonic)) ∧
  (∀ w, (∀ row ∈ opcodeRows, row.selects w = false) ↔ decodeWord w = .unrecognized)

/-- R129: the rule's examples. The spec marks R129 [derived]. -/
def Obligations.WordDecodingExamples : Prop :=
  decodeWord 0x8C010000#32 = .lw 1#5 0#32 0#5 ∧ decodeWord 0x00221820#32 = .add 3#5 1#5 2#5 ∧
  decodeWord 0x8CA4FFFC#32 = .lw 4#5 0xFFFFFFFC#32 5#5 ∧ decodeWord 0x00000000#32 = .unrecognized ∧
  decodeWord 0x00221860#32 = .unrecognized ∧ decodeWord 0x00221821#32 = .unrecognized

/-- R127: every word decodes, and what it decodes to resolves. The spec marks R127 [derived]. -/
def Obligations.WordDecoderIsTotal : Prop :=
  ∀ w : Word, ∃ i, decodeRaw (.word w) = .ok (.op i) ∧ resolve (.op i) = .ok i

/-- R84 to R86, R131: the canonical record of every instruction, offsets of all 32 bits included, decodes
and resolves to it. For `Nop` the record is the model's choice (log 13). -/
def Obligations.RecordOfInstructionResolves : Prop :=
  ∀ i : Instr, resolveRaw (.record (recordText i)) = .ok i

/-- R100: canonical records and words of the four instructions correspond one to one and decode to the
same instruction; with the rule's worked examples. The spec marks R100 [derived], by its decision D8. -/
def Obligations.RecordsAndWordsCorrespond : Prop :=
  (∀ i : Instr, i ≠ .unrecognized → i.wellFormed = true →
    assemble (recordText i) = some (encode i) ∧ resolveRaw (.record (recordText i)) = .ok i ∧
      resolveRaw (.word (encode i)) = .ok i) ∧
  (∀ i j : Instr, i ≠ .unrecognized → j ≠ .unrecognized → i.wellFormed = true → j.wellFormed = true →
    (recordText i = recordText j ↔ encode i = encode j)) ∧
  assemble "LW $r1,0($r0)".toList = some 0x8C010000#32 ∧
  assemble "LW $r2,4($r0)".toList = some 0x8C020004#32 ∧
  assemble "ADD $r3,$r1,$r2".toList = some 0x00221820#32 ∧
  assemble "SW $r3,8($r0)".toList = some 0xAC030008#32 ∧
  assemble "ADD $r1,$r2,$r3".toList = some 0x00430820#32 ∧
  assemble "SUB $r1,$r0,$r2".toList = some 0x00020822#32 ∧
  assemble "LW $r4,-4($r5)".toList = some 0x8CA4FFFC#32

/-- R83: the register operands are exactly `$r0` to `$r31`; any other text in a register position gives
OperandFormError when the instruction executes. -/
def Obligations.RegisterTextsAreExact : Prop :=
  (∀ (t : Text) (r : RegIdx), parseReg t = some r ↔ t = regText r) ∧
  (∀ t : Text, (∀ r, t ≠ regText r) → ∀ (b c : Text),
    (∀ opcode ∈ ["ADD".toList, "SUB".toList],
      resolve (.pair opcode [t, b, c]) = .error .operandFormError ∧
      resolve (.pair opcode [b, t, c]) = .error .operandFormError ∧
      resolve (.pair opcode [b, c, t]) = .error .operandFormError) ∧
    (∀ opcode ∈ ["LW".toList, "SW".toList],
      resolve (.pair opcode [t, b]) = .error .operandFormError ∧
      resolve (.pair opcode [b, c ++ ['('] ++ t ++ [')']]) = .error .operandFormError))

/-- R85, R131: a memory operand is an offset, an opening parenthesis, a register and a closing one, with
nothing before, between or after. -/
def Obligations.MemoryOperandShape : Prop :=
  ∀ (t : Text) (off : Word) (base : RegIdx), parseMemOperand t = some (off, base) ↔
    ∃ o, parseOffset o = some off ∧ t = o ++ ['('] ++ regText base ++ [')']

/-- R121, R122: the Decoder fails exactly on a record without a space, with FormatError; otherwise it
splits at the first space and at every comma and trims. -/
def Obligations.FormatErrorIffNoSpace : Prop :=
  ∀ t : Text,
    (decodeRecord t = .error .formatError ↔ ' ' ∉ t) ∧
    (∀ opcode rest : Text, t = opcode ++ ' ' :: rest → ' ' ∉ opcode →
      decodeRecord t = .ok (.pair opcode ((splitCommas rest).map trim)))

/-- R132: OperandArityError exactly for one of the four opcodes with the wrong operand count. -/
def Obligations.OperandCountErrors : Prop :=
  ∀ (opcode : Text) (operands : List Text),
    resolve (.pair opcode operands) = .error .operandArityError ↔
      (opcode ∈ ["ADD".toList, "SUB".toList] ∧ operands.length ≠ 3) ∨
      (opcode ∈ ["LW".toList, "SW".toList] ∧ operands.length ≠ 2)

/-- R133: OperandFormError exactly for one of the four opcodes with the right count and an operand that is
no register identifier or no memory operand. -/
def Obligations.OperandShapeErrors : Prop :=
  ∀ (opcode : Text) (operands : List Text),
    resolve (.pair opcode operands) = .error .operandFormError ↔
      (opcode ∈ ["ADD".toList, "SUB".toList] ∧ operands.length = 3 ∧
        ∃ t ∈ operands, ∀ r, t ≠ regText r) ∨
      (opcode ∈ ["LW".toList, "SW".toList] ∧ ∃ a b, operands = [a, b] ∧
        ((∀ r, a ≠ regText r) ∨
          ∀ o off base, parseOffset o = some off → b ≠ o ++ ['('] ++ regText base ++ [')']))

/-! The sequencer. -/

/-- R137, R174: a step whose slot 2 holds a decoded instruction runs exactly that instruction, between the
two sub-steps before it and the three after it. -/
def Obligations.StepRunsDecodedInstruction : Prop :=
  ∀ (s t : State) (d : Decoded) (i : Instr), s.latch = none → s.slots.s2 = .dec d → resolve d = .ok i →
    exec i (memoryAccessStage (writeBackStage s)) = .next t →
    step s = .next (frontEnd (t.moveExecuted d))

/-- The host's placing of a word: the next step runs what the Decoder reads from it, as the first
instruction of a one-word program (log 7). -/
def Obligations.PlacedWordRunsInNextStep : Prop :=
  ∀ (s : State) (nbits w : Nat) (i : Instr), decodeTableWord nbits w = some i →
    ∃ t u, exec i (s.withFetchWord nbits w) = .next t ∧ step (s.withFetchWord nbits w) = .next u ∧
      SameData u t ∧ u.latch = none ∧ u.slots = { Slots.allEmpty with s3 := .dec (.op i) } ∧
      SameData (s.withFetchWord nbits w) s

/-- R128, R137, R183: the instruction at `pc` is fetched in one step, decoded in the next and executed in
the one after. The spec marks R183 [derived]. -/
def Obligations.FetchedWordExecutesInThirdStep : Prop :=
  ∀ (s : State) (w : Word), s.Inv → s.wordLevel → s.latch = none →
    s.imem[s.pc.toNat]? = some (.word w) →
    ∃ t u v x, step s = .next t ∧ step t = .next u ∧ step u = .next v ∧
      t.slots.s1 = .raw (.word w) ∧ u.slots.s2 = .dec (.op (decodeWord w)) ∧
      v.slots.s3 = .dec (.op (decodeWord w)) ∧
      exec (decodeWord w) u = .next x ∧ SameData v x

/-- R182: in a busy state with typed slots, when no sub-step raises, the step is the simultaneous
assignment. The spec marks R182 [derived]. -/
def Obligations.StepIsParallelForm : Prop :=
  ∀ s : State, s.busy = true → s.slots.typed →
    (∀ d, s.slots.s2 = .dec d → ∃ i, resolve d = .ok i) →
    (∀ i, s.slots.s1 = .raw i → ∃ d, decodeRaw i = .ok d) →
    ∃ t, step s = .next t ∧
      t.retired = s.retired ++ s.slots.s4.decodedOccupant ∧
      t.slots.s4 = s.slots.s3 ∧ t.slots.s3 = s.slots.s2 ∧
      (s.slots.s2 = .empty → SameData t s) ∧
      (∀ d i u, s.slots.s2 = .dec d → resolve d = .ok i → exec i s = .next u → SameData t u) ∧
      (s.slots.s1 = .empty → t.slots.s2 = .empty) ∧
      (∀ i d, s.slots.s1 = .raw i → decodeRaw i = .ok d → t.slots.s2 = .dec d) ∧
      t.slots.s1 = rawAt s.imem s.pc.toNat ∧
      t.pc = (if s.pc.toNat < s.programLength then s.pc + 1#32 else s.pc) ∧
      t.slots.s0 = .empty ∧ t.hist = s.hist ++ [t.slots] ∧ t.latch = none ∧ t.imem = s.imem

/-- R178, R179, R208: a halted or faulted machine keeps its state. The spec marks R179 [derived], by its
decision D15. -/
def Obligations.StoppedMachineKeepsState : Prop :=
  ∀ s : State, (s.slots = Slots.allEmpty ∧ s.pc.toNat = s.programLength) ∨ s.latch ≠ none →
    step s = .next s

/-- R204, R205: an operand fault ends the cycle in sub-step 3: the pair and the younger instruction stay
in slots 2 and 1, slot 3 has moved on, nothing is written, fetched or recorded. -/
def Obligations.OperandFaultEndsCycle : Prop :=
  ∀ (s : State) (d : Decoded) (k : FaultKind), s.latch = none → s.slots.typed →
    s.slots.s2 = .dec d → resolve d = .error k →
    ∃ t, step s = .next t ∧ t.latch = some ⟨k, .dec d⟩ ∧ SameData t s ∧ t.pc = s.pc ∧
      t.slots = ⟨.empty, s.slots.s1, .dec d, .empty, s.slots.s3⟩ ∧ t.hist = s.hist ∧
      t.retired = s.retired ++ s.slots.s4.decodedOccupant ∧ t.imem = s.imem

/-- R204, R205: a FormatError ends the cycle in sub-step 4: the older instruction has executed in this
cycle, the record stays in slot 1, nothing is fetched or recorded. -/
def Obligations.FormatErrorEndsCycle : Prop :=
  ∀ (s : State) (r : RawInstr) (k : FaultKind), s.latch = none → s.slots.typed →
    (∀ d, s.slots.s2 = .dec d → ∃ i, resolve d = .ok i) →
    s.slots.s1 = .raw r → decodeRaw r = .error k →
    ∃ t, step s = .next t ∧ k = .formatError ∧ t.latch = some ⟨.formatError, .raw r⟩ ∧
      (s.slots.s2 = .empty → SameData t s) ∧
      (∀ d i u, s.slots.s2 = .dec d → resolve d = .ok i → exec i s = .next u → SameData t u) ∧
      t.pc = s.pc ∧ t.slots = ⟨.empty, .raw r, .empty, s.slots.s2, s.slots.s3⟩ ∧ t.hist = s.hist ∧
      t.retired = s.retired ++ s.slots.s4.decodedOccupant ∧ t.imem = s.imem

/-- R33: the latch is None after reset, set only by a fault of the occupant it records, with the kind that
occupant raises, and never cleared except by reset; while it is set no step is taken, and at the word level
it stays None. Its codes are those of R200. -/
def Obligations.LatchRecordsItsCause : Prop :=
  (∀ s : State, ∃ t, clockEdge true s = .next t ∧ t.latch = none) ∧
  (∀ s : State, s.latch ≠ none → step s = .next s) ∧
  (∀ s t : State, s.wordLevel → s.latch = none → step s = .next t → t.wordLevel ∧ t.latch = none) ∧
  (∀ (s t : State) (f : FaultLatch), s.latch = none → step s = .next t → t.latch = some f →
    (∃ d, s.slots.s2 = .dec d ∧ resolve d = .error f.kind ∧ f.occupant = .dec d ∧
      t.slots.s2 = .dec d ∧ (f.kind = .operandArityError ∨ f.kind = .operandFormError)) ∨
    (∃ r, s.slots.s1 = .raw r ∧ decodeRaw r = .error f.kind ∧ f.occupant = .raw r ∧
      t.slots.s1 = .raw r ∧ f.kind = .formatError)) ∧
  (∀ s : State, s.faultCode = 0#2 ↔ s.latch = none) ∧
  FaultKind.formatError.code = 1#2 ∧ FaultKind.operandArityError.code = 2#2 ∧
  FaultKind.operandFormError.code = 3#2

/-- R25, R30, R35, R36: every step, from every state that meets it, keeps the invariant. -/
def Obligations.StepKeepsInvariant : Prop :=
  ∀ s t : State, s.Inv → step s = .next t → t.Inv

/-- R209: at the word level no fault is reachable, and the machine stays at the word level. The spec marks
R209, R127 [derived]. -/
def Obligations.WordLevelNeverFaults : Prop :=
  ∀ s : State, s.wordLevel → s.latch = none →
    ∃ t, step s = .next t ∧ t.wordLevel ∧ t.latch = none

/-- R34, R64: no step changes the program. What a fetch brings is `PcAdvancesOnlyByFetch`, and that data
memory does not reach it is `FetchIgnoresData`. -/
def Obligations.ProgramNeverChanges : Prop :=
  ∀ s t : State, step s = .next t → t.imem = s.imem

/-- R31, R177: a completed cycle appends one record, the slots as they stand at its end; a step that
completes none appends nothing; no record is ever changed. For stopped machines the spec marks R179
[derived], by its decision D15. -/
def Obligations.HistoryIsAppendOnly : Prop :=
  ∀ s t : State, step s = .next t →
    (s.busy = true → t.latch = none → t.hist = s.hist ++ [t.slots]) ∧
    (s.busy = false ∨ t.latch ≠ none → t.hist = s.hist)

/-- R31, R32, R36, R37: history, retire log and key set are never read: with any others in their place
the step does the same to everything else. -/
def Obligations.HiddenStateIsNeverRead : Prop :=
  ∀ (s t : State) (h : List CycleRecord) (w : List Decoded) (ks : KeySet), step s = .next t →
    ∃ t', step { s with hist := h, retired := w, keys := ks } = .next t' ∧
      t' = { t with hist := t'.hist, retired := t'.retired, keys := t'.keys }

/-- R25, R176, R186: `pc` changes only by 1, exactly when a cycle completes with `pc < N`, and then slot 1
holds the instruction it named. -/
def Obligations.PcAdvancesOnlyByFetch : Prop :=
  ∀ s t : State, step s = .next t →
    (s.busy = true → t.latch = none → s.pc.toNat < s.programLength →
      t.pc = s.pc + 1#32 ∧ t.slots.s1 = rawAt s.imem s.pc.toNat) ∧
    (s.busy = false ∨ t.latch ≠ none ∨ s.programLength ≤ s.pc.toNat → t.pc = s.pc)

/-- R35, R153: a step changes a cell only by executing an SW, only at its address, to the register it
stores; keys appear only there too. -/
def Obligations.OnlyStoresChangeMemory : Prop :=
  ∀ s t : State, s.memoryWf → step s = .next t →
    (∀ a, t.memRead a ≠ s.memRead a → ∃ d rt off base, s.slots.s2 = .dec d ∧
      resolve d = .ok (.sw rt off base) ∧ a = effectiveAddress s base off ∧
      t.memRead a = s.readReg rt) ∧
    (∀ k, k ∈ t.keys → k ∉ s.keys → ∃ d rt off base, s.slots.s2 = .dec d ∧
      resolve d = .ok (.sw rt off base) ∧ k = (effectiveAddress s base off).toNat) ∧
    (∀ k, k ∈ s.keys → k ∈ t.keys)

/-- R22: a step changes a register only by executing an instruction whose destination it is. -/
def Obligations.OnlyDestinationRegisterChanges : Prop :=
  ∀ (s t : State) (r : RegIdx), step s = .next t → t.readReg r ≠ s.readReg r →
    ∃ d i, s.slots.s2 = .dec d ∧ resolve d = .ok i ∧ destination i = some r

/-- R173, R185: an instruction in slot 1, 3 or 4 changes no register, cell or key: with slot 2 empty a
step keeps them all. -/
def Obligations.EffectsCommitInExecuteOnly : Prop :=
  ∀ s t : State, s.slots.s2 = .empty → step s = .next t → SameData t s

/-! Whole runs. -/

/-- R181, R183: where each instruction is, cycle by cycle, what has executed, what has retired, and `pc`,
in a fault-free run of any program from any launch state. The spec marks R183 [derived]. -/
def Obligations.RunFollowsTimetable : Prop :=
  ∀ (s : State) (c : Nat), s.Launched → (∀ i ∈ s.imem, raisesNothing i = true) →
    1 ≤ s.programLength → c ≤ s.programLength + 4 →
    ∃ t, runFor c s = .next t ∧ t.AtCycle c ∧ t.imem = s.imem ∧
      SameData t (seqAfter (min s.programLength (c - 2)) s)

/-- R184: a fault-free run takes 0 cycles for an empty program and exactly N + 4 otherwise, with as many
records, of which all but the last hold an occupant; the last cycle changes no register, cell or key. The
spec marks R184 [derived]. -/
def Obligations.CycleCountLaw : Prop :=
  ∀ s : State, s.Launched → (∀ i ∈ s.imem, raisesNothing i = true) →
    (s.programLength = 0 → s.halted = true) ∧
    (1 ≤ s.programLength →
      (∀ c, c < s.programLength + 4 →
        ∃ t, runFor c s = .next t ∧ t.busy = true ∧ t.hist.length = c) ∧
      ∃ t u, runFor (s.programLength + 4) s = .next t ∧ t.final = true ∧
        runFor (s.programLength + 3) s = .next u ∧ SameData t u ∧
        t.hist.length = s.programLength + 4 ∧
        (∀ j, j < s.programLength + 3 → ∃ r, t.hist[j]? = some r ∧ r ≠ Slots.allEmpty) ∧
        t.hist[s.programLength + 3]? = some Slots.allEmpty)

/-- R189: after any number of cycles of a fault-free run, registers, data memory and key set are those of
the machine that runs one instruction at a time, and at the end those after the whole program. The spec
marks R189 [derived]. -/
def Obligations.PipelineMatchesSequentialMachine : Prop :=
  ∀ (s : State) (c : Nat), s.Launched → (∀ i ∈ s.imem, raisesNothing i = true) →
    ∃ t, runFor c s = .next t ∧ t.latch = none ∧
      SameData t (seqAfter (min s.programLength (c - 2)) s) ∧
      (s.programLength + 2 ≤ c → SameData t (seqRun s.imem s))

/-- R206: when instruction `k` faults, registers, data memory and key set hold exactly the effects of
instructions 0 to k-1; no earlier instruction of the program raises a fault. The spec marks R206
[derived]. -/
def Obligations.FaultsArePrecise : Prop :=
  ∀ (s t : State) (c : Nat) (f : FaultLatch), s.Launched → runFor c s = .next t →
    t.latch = some f →
    ∃ k i, s.imem[k]? = some i ∧ resolveRaw i = .error f ∧
      (∀ j ∈ s.imem.take k, raisesNothing j = true) ∧ SameData t (seqAfter k s)

/-- R179, R235: every run ends, final or aborted, within N + 4 cycles. The spec marks both rules and R184
[derived]. -/
def Obligations.EveryRunEnds : Prop :=
  ∀ s : State, s.Launched →
    ∃ t, runFor (s.programLength + 4) s = .next t ∧ t.busy = false ∧
      (t.final = true ↔ ∀ i ∈ s.imem, raisesNothing i = true)

/-- R183, R187: the timetable is an invariant of every step: from any state that stands where `c` cycles
leave it, reached or not, a busy step leads where `c + 1` cycles do. The spec marks R183 [derived]. -/
def Obligations.StepAdvancesTimetable : Prop :=
  ∀ (s : State) (c : Nat), s.programLength < Config.programLimit →
    (∀ i ∈ s.imem, raisesNothing i = true) → s.AtCycle c → s.busy = true →
    ∃ t, step s = .next t ∧ t.imem = s.imem ∧ t.AtCycle (c + 1)

/-! Records and words, and fetch and data, once more. -/

/-- R101: which records have a word. An unrecognized opcode assembles to the canonical no-operation word,
as which every unrecognized word behaves; an offset of LW or SW outside -32768 to 32767 as written, before
any reduction, has none, and executes reduced modulo 2^32; a malformed record has none. A record that has
a word means what the word means. The spec rests R101 on its decisions D10, D21 and D29. -/
def Obligations.RecordsWithAndWithoutWord : Prop :=
  (∀ (t opcode : Text) (operands : List Text), decodeRecord t = .ok (.pair opcode operands) →
    opcode ∉ ["ADD".toList, "SUB".toList, "LW".toList, "SW".toList] →
    assemble t = some 0x00000000#32 ∧ resolveRaw (.record t) = .ok .unrecognized ∧
      ∀ w, decodeWord w = .unrecognized → resolveRaw (.word w) = resolveRaw (.record t)) ∧
  (∀ (t o digits : Text) (n : Nat) (v : Int) (rt base : RegIdx), decimal digits = some n →
    (o = digits ∧ v = n) ∨ (o = '-' :: digits ∧ v = -(n : Int)) →
    (decodeRecord t = .ok (.pair "LW".toList [regText rt, o ++ ['('] ++ regText base ++ [')']]) →
      resolveRaw (.record t) = .ok (.lw rt (BitVec.ofInt 32 v) base) ∧
      assemble t = if -32768 ≤ v ∧ v ≤ 32767 then some (encode (.lw rt (BitVec.ofInt 32 v) base)) else none) ∧
    (decodeRecord t = .ok (.pair "SW".toList [regText rt, o ++ ['('] ++ regText base ++ [')']]) →
      resolveRaw (.record t) = .ok (.sw rt (BitVec.ofInt 32 v) base) ∧
      assemble t = if -32768 ≤ v ∧ v ≤ 32767 then some (encode (.sw rt (BitVec.ofInt 32 v) base)) else none)) ∧
  (∀ (t : Text) (f : FaultLatch), resolveRaw (.record t) = .error f → assemble t = none) ∧
  (∀ (t : Text) (w : Word), assemble t = some w → resolveRaw (.word w) = resolveRaw (.record t))

/-- R64: stores are never seen by instruction fetch, and nothing makes them seen. A step leaves the program
as it is, and with any other registers, data memory and key set in their place it does the same to
everything else, what it fetches included. -/
def Obligations.FetchIgnoresData : Prop :=
  ∀ (s t : State) (rs : Vector Word 32) (m : Memory) (ks : KeySet), step s = .next t →
    t.imem = s.imem ∧
    ∃ t', step { s with regs := rs, mem := m, keys := ks } = .next t' ∧
      t' = { t with regs := t'.regs, mem := t'.mem, keys := t'.keys }
end

