-- ==== Sys2Proof/Laws/Encoding.lean ====
section
/-! SUPPORT. The fields of an assembled word, and a word from its fields (`30_encoding.md` R88 to R90). -/

namespace Sys2Proof

@[simp] theorem fieldOpcode_rFormat (rs rt rd : RegIdx) (f : BitVec 6) :
    fieldOpcode (rFormat rs rt rd f) = 0b000000#6 := by
  ext i hi
  simp only [fieldOpcode, rFormat, BitVec.getElem_extractLsb', BitVec.getLsbD_append]
  interval_cases i <;> simp

@[simp] theorem fieldRs_rFormat (rs rt rd : RegIdx) (f : BitVec 6) :
    fieldRs (rFormat rs rt rd f) = rs := by
  ext i hi
  simp only [fieldRs, rFormat, BitVec.getElem_extractLsb', BitVec.getLsbD_append]
  interval_cases i <;> simp

@[simp] theorem fieldRt_rFormat (rs rt rd : RegIdx) (f : BitVec 6) :
    fieldRt (rFormat rs rt rd f) = rt := by
  ext i hi
  simp only [fieldRt, rFormat, BitVec.getElem_extractLsb', BitVec.getLsbD_append]
  interval_cases i <;> simp

@[simp] theorem fieldRd_rFormat (rs rt rd : RegIdx) (f : BitVec 6) :
    fieldRd (rFormat rs rt rd f) = rd := by
  ext i hi
  simp only [fieldRd, rFormat, BitVec.getElem_extractLsb', BitVec.getLsbD_append]
  interval_cases i <;> simp

@[simp] theorem fieldShamt_rFormat (rs rt rd : RegIdx) (f : BitVec 6) :
    fieldShamt (rFormat rs rt rd f) = 0b00000#5 := by
  ext i hi
  simp only [fieldShamt, rFormat, BitVec.getElem_extractLsb', BitVec.getLsbD_append]
  interval_cases i <;> simp

@[simp] theorem fieldFunct_rFormat (rs rt rd : RegIdx) (f : BitVec 6) :
    fieldFunct (rFormat rs rt rd f) = f := by
  ext i hi
  simp only [fieldFunct, rFormat, BitVec.getElem_extractLsb', BitVec.getLsbD_append]
  interval_cases i <;> simp

@[simp] theorem fieldOpcode_iFormat (op : BitVec 6) (base rt : RegIdx) (imm : BitVec 16) :
    fieldOpcode (iFormat op base rt imm) = op := by
  ext i hi
  simp only [fieldOpcode, iFormat, BitVec.getElem_extractLsb', BitVec.getLsbD_append]
  interval_cases i <;> simp

@[simp] theorem fieldRs_iFormat (op : BitVec 6) (base rt : RegIdx) (imm : BitVec 16) :
    fieldRs (iFormat op base rt imm) = base := by
  ext i hi
  simp only [fieldRs, iFormat, BitVec.getElem_extractLsb', BitVec.getLsbD_append]
  interval_cases i <;> simp

@[simp] theorem fieldRt_iFormat (op : BitVec 6) (base rt : RegIdx) (imm : BitVec 16) :
    fieldRt (iFormat op base rt imm) = rt := by
  ext i hi
  simp only [fieldRt, iFormat, BitVec.getElem_extractLsb', BitVec.getLsbD_append]
  interval_cases i <;> simp

@[simp] theorem fieldImm_iFormat (op : BitVec 6) (base rt : RegIdx) (imm : BitVec 16) :
    fieldImm (iFormat op base rt imm) = imm := by
  ext i hi
  simp only [fieldImm, iFormat, BitVec.getElem_extractLsb', BitVec.getLsbD_append]
  interval_cases i <;> simp

/-- A word with the fixed fields of the R format is the R-format word of its other fields. -/
theorem eq_rFormat_of_fields {w : Word} (hop : fieldOpcode w = 0b000000#6) (hsh : fieldShamt w = 0b00000#5) :
    w = rFormat (fieldRs w) (fieldRt w) (fieldRd w) (fieldFunct w) := by
  rw [rFormat, ← hop, ← hsh]
  refine BitVec.eq_of_getLsbD_eq fun i hi => ?_
  simp only [fieldOpcode, fieldRs, fieldRt, fieldRd, fieldShamt, fieldFunct, BitVec.getLsbD_append,
    BitVec.getLsbD_extractLsb']
  interval_cases i <;> simp

/-- A word is the I-format word of its fields. -/
theorem eq_iFormat_of_fields (w : Word) :
    w = iFormat (fieldOpcode w) (fieldRs w) (fieldRt w) (fieldImm w) := by
  refine BitVec.eq_of_getLsbD_eq fun i hi => ?_
  simp only [iFormat, fieldOpcode, fieldRs, fieldRt, fieldImm, BitVec.getLsbD_append,
    BitVec.getLsbD_extractLsb']
  interval_cases i <;> simp

/-- A sign-extended field fits, and the field is its low half. -/
@[simp] theorem extractLsb'_signedOffset (imm : BitVec 16) :
    (signedOffset imm).extractLsb' 0 16 = imm := by
  ext i hi
  simp only [signedOffset, BitVec.getElem_extractLsb', BitVec.getLsbD_signExtend]
  simp [hi, Nat.lt_of_lt_of_le hi (by decide : 16 ≤ 32)]

@[simp] theorem offsetFits_signedOffset (imm : BitVec 16) : offsetFits (signedOffset imm) = true := by
  rw [offsetFits, beq_iff_eq]
  exact congrArg signedOffset (extractLsb'_signedOffset imm).symm

/-- A fitting offset is the sign extension of its low half. -/
theorem signedOffset_of_fits {off : Word} (h : offsetFits off = true) :
    signedOffset (off.extractLsb' 0 16) = off := by
  rw [offsetFits, beq_iff_eq] at h
  exact h.symm

end Sys2Proof
end

