-- ==== Sys2Proof/Laws/State.lean ====
section
/-! SUPPORT. One lemma per field per update of the state, so that no proof unfolds a record update. -/

namespace Sys2Proof.Machine

/-! Register write. -/

@[simp] theorem State.writeReg_regs (r : RegIdx) (v : Word) (s : State) : (s.writeReg r v).regs = s.regs.set r.toNat v r.isLt := rfl
@[simp] theorem State.writeReg_mem (r : RegIdx) (v : Word) (s : State) : (s.writeReg r v).mem = s.mem := rfl
@[simp] theorem State.writeReg_keys (r : RegIdx) (v : Word) (s : State) : (s.writeReg r v).keys = s.keys := rfl
@[simp] theorem State.writeReg_pc (r : RegIdx) (v : Word) (s : State) : (s.writeReg r v).pc = s.pc := rfl
@[simp] theorem State.writeReg_slots (r : RegIdx) (v : Word) (s : State) : (s.writeReg r v).slots = s.slots := rfl
@[simp] theorem State.writeReg_hist (r : RegIdx) (v : Word) (s : State) : (s.writeReg r v).hist = s.hist := rfl
@[simp] theorem State.writeReg_retired (r : RegIdx) (v : Word) (s : State) : (s.writeReg r v).retired = s.retired := rfl
@[simp] theorem State.writeReg_latch (r : RegIdx) (v : Word) (s : State) : (s.writeReg r v).latch = s.latch := rfl
@[simp] theorem State.writeReg_imem (r : RegIdx) (v : Word) (s : State) : (s.writeReg r v).imem = s.imem := rfl

/-! Memory write. -/

@[simp] theorem State.memWrite_regs (a v : Word) (s : State) : (s.memWrite a v).regs = s.regs := rfl
@[simp] theorem State.memWrite_mem (a v : Word) (s : State) : (s.memWrite a v).mem = s.mem.write a.toNat v := rfl
@[simp] theorem State.memWrite_keys (a v : Word) (s : State) : (s.memWrite a v).keys = s.keys.add a.toNat := rfl
@[simp] theorem State.memWrite_pc (a v : Word) (s : State) : (s.memWrite a v).pc = s.pc := rfl
@[simp] theorem State.memWrite_slots (a v : Word) (s : State) : (s.memWrite a v).slots = s.slots := rfl
@[simp] theorem State.memWrite_hist (a v : Word) (s : State) : (s.memWrite a v).hist = s.hist := rfl
@[simp] theorem State.memWrite_retired (a v : Word) (s : State) : (s.memWrite a v).retired = s.retired := rfl
@[simp] theorem State.memWrite_latch (a v : Word) (s : State) : (s.memWrite a v).latch = s.latch := rfl
@[simp] theorem State.memWrite_imem (a v : Word) (s : State) : (s.memWrite a v).imem = s.imem := rfl

/-! Raising a fault. -/

@[simp] theorem State.raise_regs (k : FaultKind) (o : Slot) (s : State) : (s.raise k o).regs = s.regs := rfl
@[simp] theorem State.raise_mem (k : FaultKind) (o : Slot) (s : State) : (s.raise k o).mem = s.mem := rfl
@[simp] theorem State.raise_keys (k : FaultKind) (o : Slot) (s : State) : (s.raise k o).keys = s.keys := rfl
@[simp] theorem State.raise_pc (k : FaultKind) (o : Slot) (s : State) : (s.raise k o).pc = s.pc := rfl
@[simp] theorem State.raise_slots (k : FaultKind) (o : Slot) (s : State) : (s.raise k o).slots = s.slots := rfl
@[simp] theorem State.raise_hist (k : FaultKind) (o : Slot) (s : State) : (s.raise k o).hist = s.hist := rfl
@[simp] theorem State.raise_retired (k : FaultKind) (o : Slot) (s : State) : (s.raise k o).retired = s.retired := rfl
@[simp] theorem State.raise_latch (k : FaultKind) (o : Slot) (s : State) : (s.raise k o).latch = some ⟨k, o⟩ := rfl
@[simp] theorem State.raise_imem (k : FaultKind) (o : Slot) (s : State) : (s.raise k o).imem = s.imem := rfl

/-! The move out of slot 2. -/

@[simp] theorem State.moveExecuted_regs (d : Decoded) (s : State) : (s.moveExecuted d).regs = s.regs := rfl
@[simp] theorem State.moveExecuted_mem (d : Decoded) (s : State) : (s.moveExecuted d).mem = s.mem := rfl
@[simp] theorem State.moveExecuted_keys (d : Decoded) (s : State) : (s.moveExecuted d).keys = s.keys := rfl
@[simp] theorem State.moveExecuted_pc (d : Decoded) (s : State) : (s.moveExecuted d).pc = s.pc := rfl
@[simp] theorem State.moveExecuted_slots (d : Decoded) (s : State) : (s.moveExecuted d).slots = { s.slots with s2 := .empty, s3 := .dec d } := rfl
@[simp] theorem State.moveExecuted_hist (d : Decoded) (s : State) : (s.moveExecuted d).hist = s.hist := rfl
@[simp] theorem State.moveExecuted_retired (d : Decoded) (s : State) : (s.moveExecuted d).retired = s.retired := rfl
@[simp] theorem State.moveExecuted_latch (d : Decoded) (s : State) : (s.moveExecuted d).latch = s.latch := rfl
@[simp] theorem State.moveExecuted_imem (d : Decoded) (s : State) : (s.moveExecuted d).imem = s.imem := rfl

/-! The record of a cycle. -/

@[simp] theorem recordStage_regs(s : State) : (recordStage s).regs = s.regs := rfl
@[simp] theorem recordStage_mem(s : State) : (recordStage s).mem = s.mem := rfl
@[simp] theorem recordStage_keys(s : State) : (recordStage s).keys = s.keys := rfl
@[simp] theorem recordStage_pc(s : State) : (recordStage s).pc = s.pc := rfl
@[simp] theorem recordStage_slots(s : State) : (recordStage s).slots = s.slots := rfl
@[simp] theorem recordStage_hist(s : State) : (recordStage s).hist = s.hist ++ [s.slots] := rfl
@[simp] theorem recordStage_retired(s : State) : (recordStage s).retired = s.retired := rfl
@[simp] theorem recordStage_latch(s : State) : (recordStage s).latch = s.latch := rfl
@[simp] theorem recordStage_imem(s : State) : (recordStage s).imem = s.imem := rfl

/-! Placing a first word. -/

@[simp] theorem State.withWordDecoded_regs (w : Word) (s : State) : (s.withWordDecoded w).regs = s.regs := rfl
@[simp] theorem State.withWordDecoded_mem (w : Word) (s : State) : (s.withWordDecoded w).mem = s.mem := rfl
@[simp] theorem State.withWordDecoded_keys (w : Word) (s : State) : (s.withWordDecoded w).keys = s.keys := rfl
@[simp] theorem State.withWordDecoded_pc (w : Word) (s : State) : (s.withWordDecoded w).pc = 1#32 := rfl
@[simp] theorem State.withWordDecoded_slots (w : Word) (s : State) : (s.withWordDecoded w).slots = decodedRecord w := rfl
@[simp] theorem State.withWordDecoded_hist (w : Word) (s : State) : (s.withWordDecoded w).hist = [fetchedRecord w, decodedRecord w] := rfl
@[simp] theorem State.withWordDecoded_retired (w : Word) (s : State) : (s.withWordDecoded w).retired = [] := rfl
@[simp] theorem State.withWordDecoded_latch (w : Word) (s : State) : (s.withWordDecoded w).latch = none := rfl
@[simp] theorem State.withWordDecoded_imem (w : Word) (s : State) : (s.withWordDecoded w).imem = [.word w] := rfl

end Sys2Proof.Machine
end

