-- ==== Sys2Proof/Laws/Registers.lean ====
section
/-! SUPPORT. Reading and writing registers and data cells: a read after a write to the same place gives
the value written, every other place is left alone. -/

namespace Sys2Proof.Machine

theorem State.readReg_of_regs_eq {s t : State} (h : s.regs = t.regs) (r : RegIdx) :
    s.readReg r = t.readReg r := by
  simp only [State.readReg, h]

@[simp] theorem State.readReg_writeReg_self (s : State) (r : RegIdx) (v : Word) :
    (s.writeReg r v).readReg r = v := by
  simp [State.readReg]

@[simp] theorem State.readReg_writeReg_of_ne (s : State) {r q : RegIdx} (v : Word) (h : q ≠ r) :
    (s.writeReg r v).readReg q = s.readReg q := by
  have hne : r.toNat ≠ q.toNat := fun e => h (BitVec.eq_of_toNat_eq e.symm)
  simp [State.readReg, Vector.getElem_set_ne, hne]

@[simp] theorem State.readReg_memWrite (s : State) (a v : Word) (r : RegIdx) :
    (s.memWrite a v).readReg r = s.readReg r := rfl

@[simp] theorem State.memRead_writeReg (s : State) (r : RegIdx) (v a : Word) :
    (s.writeReg r v).memRead a = s.memRead a := rfl

/-- Writing back the value a register holds changes nothing. -/
theorem State.writeReg_readReg (s : State) (r : RegIdx) : s.writeReg r (s.readReg r) = s := by
  simp [State.writeReg, State.readReg]

end Sys2Proof.Machine
end

