-- ==== Sys2Proof/Laws/Memory.lean ====
section
/-! SUPPORT. The laws of data memory and key set: reads after writes, and that every operation keeps the
canonical forms. -/

namespace Sys2Proof.Machine

/-- Every address listed is above `k`. -/
abbrev Memory.above (k : Nat) (m : Memory) : Prop := ∀ c ∈ m, k < c.1

theorem Memory.wf_nil : Memory.wf [] := by simp [Memory.wf]

theorem Memory.wf_cons_iff (c : Nat × Word) (m : Memory) :
    Memory.wf (c :: m) ↔
      (c.1 < 2 ^ 32 ∧ c.2 ≠ Config.cellDefault) ∧ Memory.above c.1 m ∧ Memory.wf m := by
  simp only [Memory.wf, Memory.above, List.pairwise_cons, List.forall_mem_cons]
  tauto

/-- An address that is not listed reads as the default. -/
theorem Memory.read_of_not_mem (m : Memory) (a : Nat) (h : ∀ c ∈ m, c.1 ≠ a) :
    Memory.read m a = Config.cellDefault := by
  induction m with
  | nil => rfl
  | cons c rest ih =>
    obtain ⟨k, v⟩ := c
    have hk : k ≠ a := h (k, v) (by simp)
    simpa [Memory.read, hk] using ih fun c hc => h c (by simp [hc])

theorem Memory.read_of_above {m : Memory} {k : Nat} (h : Memory.above k m) :
    Memory.read m k = Config.cellDefault :=
  Memory.read_of_not_mem m k fun c hc => Nat.ne_of_gt (h c hc)

/-- A listed cell reads as its value. -/
theorem Memory.read_of_mem {m : Memory} (h : m.wf) {a : Nat} {v : Word} (hm : (a, v) ∈ m) :
    Memory.read m a = v := by
  induction m with
  | nil => cases hm
  | cons c rest ih =>
    obtain ⟨-, habove, hrest⟩ := (Memory.wf_cons_iff c rest).1 h
    rcases List.mem_cons.1 hm with rfl | hm'
    · simp [Memory.read]
    · have : c.1 ≠ a := Nat.ne_of_lt (habove (a, v) hm')
      simpa [Memory.read, this] using ih hrest hm'

theorem Memory.read_cons_self {rest : Memory} {a : Nat} (v : Word) (h : Memory.above a rest) :
    Memory.read (Memory.cons a v rest) a = v := by
  unfold Memory.cons
  split
  · next hv => rw [Memory.read_of_above h, hv]
  · simp [Memory.read]

theorem Memory.read_cons_of_ne (rest : Memory) {a b : Nat} (v : Word) (h : a ≠ b) :
    Memory.read (Memory.cons a v rest) b = Memory.read rest b := by
  unfold Memory.cons
  split
  · rfl
  · simp [Memory.read, h]

/-- A read of the cell just written. -/
theorem Memory.read_write_self {m : Memory} (h : m.wf) (a : Nat) (v : Word) :
    Memory.read (Memory.write m a v) a = v := by
  induction m with
  | nil => exact Memory.read_cons_self v (by simp)
  | cons c rest ih =>
    obtain ⟨k, u⟩ := c
    obtain ⟨-, habove, hrest⟩ := (Memory.wf_cons_iff (k, u) rest).1 h
    simp only [Memory.write]
    split
    · next hlt =>
      refine Memory.read_cons_self v ?_
      intro c hc
      rcases List.mem_cons.1 hc with rfl | hc'
      · exact hlt
      · exact Nat.lt_trans hlt (habove c hc')
    · split
      · next heq => subst heq; exact Memory.read_cons_self v habove
      · next hne => simpa [Memory.read, Ne.symm hne] using ih hrest

/-- A read of any other cell, whatever the form of the memory. -/
theorem Memory.read_write_of_ne (m : Memory) {a b : Nat} (v : Word) (h : a ≠ b) :
    Memory.read (Memory.write m a v) b = Memory.read m b := by
  induction m with
  | nil => exact Memory.read_cons_of_ne [] v h
  | cons c rest ih =>
    obtain ⟨k, u⟩ := c
    simp only [Memory.write]
    split
    · exact Memory.read_cons_of_ne _ v h
    · split
      · next heq =>
        subst heq
        simpa [Memory.read, h] using Memory.read_cons_of_ne rest v h
      · simp only [Memory.read, ih]

/-- The addresses a write leaves listed: those listed before, and at most the one written. -/
theorem Memory.mem_write {m : Memory} {a : Nat} {v : Word} {c : Nat × Word}
    (hc : c ∈ Memory.write m a v) : c ∈ m ∨ (c = (a, v) ∧ v ≠ Config.cellDefault) := by
  have cons_case : ∀ rest : Memory, c ∈ Memory.cons a v rest →
      c ∈ rest ∨ (c = (a, v) ∧ v ≠ Config.cellDefault) := by
    intro rest h
    unfold Memory.cons at h
    split at h
    · exact .inl h
    · next hv =>
      rcases List.mem_cons.1 h with h | h
      · exact .inr ⟨h, hv⟩
      · exact .inl h
  induction m with
  | nil => exact cons_case [] hc
  | cons e rest ih =>
    obtain ⟨k, u⟩ := e
    simp only [Memory.write] at hc
    split at hc
    · exact cons_case _ hc
    · split at hc
      · exact (cons_case rest hc).imp_left (List.mem_cons_of_mem _)
      · rcases List.mem_cons.1 hc with rfl | hc'
        · exact .inl (by simp)
        · exact (ih hc').imp_left (List.mem_cons_of_mem _)

theorem Memory.wf_cons {rest : Memory} {a : Nat} (v : Word) (ha : a < 2 ^ 32)
    (habove : Memory.above a rest) (h : rest.wf) : (Memory.cons a v rest).wf := by
  unfold Memory.cons
  split
  · exact h
  · next hv => exact (Memory.wf_cons_iff (a, v) rest).2 ⟨⟨ha, hv⟩, habove, h⟩

/-- A write keeps the canonical form. -/
theorem Memory.write_wf {m : Memory} (h : m.wf) {a : Nat} (ha : a < 2 ^ 32) (v : Word) :
    (Memory.write m a v).wf := by
  induction m with
  | nil => exact Memory.wf_cons v ha (by simp) Memory.wf_nil
  | cons c rest ih =>
    obtain ⟨k, u⟩ := c
    obtain ⟨hc, habove, hrest⟩ := (Memory.wf_cons_iff (k, u) rest).1 h
    simp only [Memory.write]
    split
    · next hlt =>
      refine Memory.wf_cons v ha ?_ h
      intro c hc
      rcases List.mem_cons.1 hc with rfl | hc'
      · exact hlt
      · exact Nat.lt_trans hlt (habove c hc')
    · next hge =>
      split
      · next heq => subst heq; exact Memory.wf_cons v ha habove hrest
      · next hne =>
        refine (Memory.wf_cons_iff (k, u) _).2 ⟨hc, ?_, ih hrest⟩
        intro c hc'
        rcases Memory.mem_write hc' with hm | ⟨rfl, -⟩
        · exact habove c hm
        · exact Nat.lt_of_le_of_ne (Nat.le_of_not_lt hge) (Ne.symm hne)

/-- An address that does not read as the default is listed. -/
theorem Memory.mem_of_read_ne {m : Memory} {a : Nat} (h : Memory.read m a ≠ Config.cellDefault) :
    (a, Memory.read m a) ∈ m := by
  induction m with
  | nil => exact absurd rfl h
  | cons c rest ih =>
    obtain ⟨k, v⟩ := c
    by_cases hk : k = a
    · simp [Memory.read, hk]
    · have heq : Memory.read ((k, v) :: rest) a = Memory.read rest a := by simp [Memory.read, hk]
      rw [heq] at h ⊢
      exact List.mem_cons_of_mem _ (ih h)

/-- In canonical form a listed cell is exactly one that reads as its value and not as the default. -/
theorem Memory.mem_iff_read {m : Memory} (h : m.wf) (c : Nat × Word) :
    c ∈ m ↔ Memory.read m c.1 = c.2 ∧ c.2 ≠ Config.cellDefault := by
  constructor
  · intro hc
    exact ⟨Memory.read_of_mem h hc, (h.2 c hc).2⟩
  · rintro ⟨hr, hv⟩
    have := Memory.mem_of_read_ne (m := m) (a := c.1) (hr ▸ hv)
    rwa [hr] at this

/-- Equal memories are equal data: two memories in canonical form that read alike are one list. -/
theorem Memory.ext_read {m n : Memory} (hm : m.wf) (hn : n.wf)
    (h : ∀ a, Memory.read m a = Memory.read n a) : m = n := by
  have nodup : ∀ {p : Memory}, p.wf → p.Nodup := fun hp =>
    hp.1.imp (S := (· ≠ ·)) fun {c d} hlt heq => Nat.lt_irrefl d.1 (heq ▸ hlt)
  have hperm : m.Perm n := (List.perm_ext_iff_of_nodup (nodup hm) (nodup hn)).2 fun c => by
    rw [Memory.mem_iff_read hm, Memory.mem_iff_read hn, h]
  exact hperm.eq_of_pairwise (fun c d _ _ hcd hdc => absurd hcd (Nat.lt_asymm hdc)) hm.1 hn.1

@[simp] theorem KeySet.mem_add (ks : KeySet) (a k : Nat) : k ∈ KeySet.add ks a ↔ k = a ∨ k ∈ ks := by
  induction ks with
  | nil => simp [KeySet.add]
  | cons x rest ih =>
    simp only [KeySet.add]
    split
    · simp
    · split
      · next h => simp [h]
      · simp [ih]; tauto

/-- Adding a key keeps the form of a key set. -/
theorem KeySet.add_wf {ks : KeySet} (h : ks.wf) {a : Nat} (ha : a < 2 ^ 32) : (KeySet.add ks a).wf := by
  refine ⟨?_, fun k hk => ((KeySet.mem_add ks a k).1 hk).elim (fun e => e ▸ ha) (h.2 k)⟩
  obtain ⟨hp, -⟩ := h
  induction ks with
  | nil => simp [KeySet.add]
  | cons x rest ih =>
    obtain ⟨hx, hrest⟩ := List.pairwise_cons.1 hp
    simp only [KeySet.add]
    split
    · next hlt =>
      refine List.pairwise_cons.2 ⟨?_, hp⟩
      intro y hy
      rcases List.mem_cons.1 hy with rfl | hy'
      · exact hlt
      · exact Nat.lt_trans hlt (hx y hy')
    · next hge =>
      split
      · exact hp
      · next hne =>
        refine List.pairwise_cons.2 ⟨?_, ih hrest⟩
        intro y hy
        rcases (KeySet.mem_add rest a y).1 hy with rfl | hy'
        · exact Nat.lt_of_le_of_ne (Nat.le_of_not_lt hge) (Ne.symm hne)
        · exact hx y hy'

/-- A load of the cell just stored gives the value stored. -/
theorem State.memRead_memWrite_self {s : State} (h : s.mem.wf) (a v : Word) :
    (s.memWrite a v).memRead a = v :=
  Memory.read_write_self h a.toNat v

/-- A store changes no other cell (`20_memory.md` R52). -/
@[simp] theorem State.memRead_memWrite_of_ne (s : State) {a b : Word} (v : Word) (h : b ≠ a) :
    (s.memWrite a v).memRead b = s.memRead b :=
  Memory.read_write_of_ne s.mem v fun e => h (BitVec.eq_of_toNat_eq e.symm)

theorem reset_mem_wf : State.reset.mem.wf := Memory.wf_nil

theorem reset_keys_wf : State.reset.keys.wf := by simp [State.reset, KeySet.wf]

end Sys2Proof.Machine
end

