-- ==== Sys2Proof/Laws/Exec.lean ====
section
/-! SUPPORT. What the Executor can do, said once: `exec` always answers a next state, and that state is
one of four (`41_executor_dispatch.md` R130). -/

namespace Sys2Proof.Machine

@[simp] theorem exec_add (rd rs rt : RegIdx) (s : State) :
    exec (.add rd rs rt) s = .next (s.writeReg rd (s.readReg rs + s.readReg rt)) := rfl

@[simp] theorem exec_sub (rd rs rt : RegIdx) (s : State) :
    exec (.sub rd rs rt) s = .next (s.writeReg rd (s.readReg rs - s.readReg rt)) := rfl

@[simp] theorem exec_lw (rt : RegIdx) (off : Word) (base : RegIdx) (s : State) :
    exec (.lw rt off base) s = .next (s.writeReg rt (s.memRead (effectiveAddress s base off))) := rfl

@[simp] theorem exec_sw (rt : RegIdx) (off : Word) (base : RegIdx) (s : State) :
    exec (.sw rt off base) s = .next (s.memWrite (effectiveAddress s base off) (s.readReg rt)) := rfl

@[simp] theorem exec_unrecognized (s : State) : exec .unrecognized s = .next s := rfl

/-- The forms of what an instruction leaves behind: one register written, one cell written, nothing. -/
theorem exec_cases (i : Instr) (s : State) :
    (∃ r v, exec i s = .next (s.writeReg r v)) ∨
    (∃ rt off base, i = .sw rt off base ∧
      exec i s = .next (s.memWrite (effectiveAddress s base off) (s.readReg rt))) ∨
    (i = .unrecognized ∧ exec i s = .next s) := by
  cases i with
  | add rd rs rt => exact .inl ⟨_, _, rfl⟩
  | sub rd rs rt => exact .inl ⟨_, _, rfl⟩
  | lw rt off base => exact .inl ⟨_, _, rfl⟩
  | sw rt off base => exact .inr (.inl ⟨rt, off, base, rfl, rfl⟩)
  | unrecognized => exact .inr (.inr ⟨rfl, rfl⟩)

/-- An instruction keeps everything but registers, data memory and key set. -/
theorem exec_frame (i : Instr) (s : State) :
    ∃ t, exec i s = .next t ∧ t.pc = s.pc ∧ t.slots = s.slots ∧ t.hist = s.hist ∧
      t.retired = s.retired ∧ t.latch = s.latch ∧ t.imem = s.imem := by
  rcases exec_cases i s with ⟨r, v, h⟩ | ⟨rt, off, base, -, h⟩ | ⟨-, h⟩
  all_goals exact ⟨_, h, rfl, rfl, rfl, rfl, rfl, rfl⟩

/-- A register write keeps the form of memory. -/
theorem State.memoryWf_writeReg {s : State} (h : s.memoryWf) (r : RegIdx) (v : Word) :
    (s.writeReg r v).memoryWf := h

/-- A memory write keeps the form of memory. -/
theorem State.memoryWf_memWrite {s : State} (h : s.memoryWf) (a v : Word) :
    (s.memWrite a v).memoryWf := by
  obtain ⟨hm, hk, hsub⟩ := h
  refine ⟨Memory.write_wf hm a.isLt v, KeySet.add_wf hk a.isLt, fun c hc => ?_⟩
  refine (KeySet.mem_add _ _ _).2 ?_
  rcases Memory.mem_write hc with hc | ⟨rfl, -⟩
  · exact .inr (hsub c hc)
  · exact .inl rfl

/-- Every instruction keeps the form of memory. -/
theorem exec_memoryWf {i : Instr} {s t : State} (h : exec i s = .next t) (hs : s.memoryWf) :
    t.memoryWf := by
  rcases exec_cases i s with ⟨r, v, e⟩ | ⟨rt, off, base, -, e⟩ | ⟨-, e⟩ <;>
    rw [e] at h <;> cases h
  · exact hs
  · exact State.memoryWf_memWrite hs _ _
  · exact hs

end Sys2Proof.Machine
end

