-- ==== Sys2Proof/Laws/Operands.lean ====
section
/-! SUPPORT. What the splitting of a memory operand and the reading of an offset answer, said once
(`30_encoding.md` R85, R101; `41_executor_dispatch.md` R131). -/

namespace Sys2Proof

theorem splitFirst_append (c : Char) (a b : Text) (h : c ∉ a) : splitFirst c (a ++ c :: b) = some (a, b) := by
  induction a with
  | nil => simp [splitFirst]
  | cons x xs ih =>
    rw [List.mem_cons, not_or] at h
    simp [splitFirst, Ne.symm h.1, ih h.2]

/-- A split at the first occurrence: the two texts around it. -/
theorem splitFirst_eq_some_iff (c : Char) (t a b : Text) :
    splitFirst c t = some (a, b) ↔ t = a ++ c :: b ∧ c ∉ a := by
  constructor
  · intro h
    induction t generalizing a with
    | nil => cases h
    | cons x xs ih =>
      rw [splitFirst] at h
      split at h
      · next hx => simp only [Option.some.injEq, Prod.mk.injEq] at h; obtain ⟨rfl, rfl⟩ := h; simp [hx]
      · next hx =>
        cases hs : splitFirst c xs with
        | none => rw [hs] at h; cases h
        | some p =>
          rw [hs] at h; simp only [Option.some.injEq, Prod.mk.injEq] at h; obtain ⟨rfl, rfl⟩ := h
          obtain ⟨rfl, hn⟩ := ih p.1 hs
          exact ⟨rfl, by simp [Ne.symm hx, hn]⟩
  · rintro ⟨rfl, h⟩; exact splitFirst_append c a b h

namespace Machine

theorem beforeClosing_eq_some_iff (t r : Text) : beforeClosing t = some r ↔ t = r ++ [')'] := by
  unfold beforeClosing
  constructor
  · intro h; split at h
    · next hl =>
      simp only [Option.some.injEq] at h; subst h
      exact (List.dropLast_append_getLast? _ hl).symm
    · cases h
  · rintro rfl; simp

/-- A memory operand splits exactly as `<offset>(<register>)` at its first parenthesis. -/
theorem splitMemOperand_eq_some_iff (t o r : Text) :
    splitMemOperand t = some (o, r) ↔ t = o ++ ['('] ++ r ++ [')'] ∧ '(' ∉ o := by
  have shape : o ++ ['('] ++ r ++ [')'] = o ++ '(' :: (r ++ [')']) := by simp
  rw [shape, ← splitFirst_eq_some_iff, splitMemOperand]
  cases splitFirst '(' t with
  | none => simp
  | some p =>
    simp only [Option.map_eq_some_iff, beforeClosing_eq_some_iff, Option.some.injEq, Prod.ext_iff]
    constructor
    · rintro ⟨q, hq, rfl, rfl⟩; exact ⟨rfl, hq⟩
    · rintro ⟨rfl, hq⟩; exact ⟨r, hq, rfl, rfl⟩

theorem digitValue_isSome_of_decimalFrom {t : Text} {acc n : Nat} (h : decimalFrom acc t = some n) :
    ∀ c ∈ t, (digitValue c).isSome := by
  induction t generalizing acc with
  | nil => simp
  | cons c cs ih =>
    rw [decimalFrom] at h
    cases hd : digitValue c with
    | none => rw [hd] at h; cases h
    | some d =>
      rw [hd] at h
      intro x hx
      rcases List.mem_cons.1 hx with rfl | hx
      · rw [hd]; rfl
      · exact ih h x hx

/-- Every character of a decimal number is a digit. -/
theorem digitValue_isSome_of_decimal {t : Text} {n : Nat} (h : decimal t = some n) :
    ∀ c ∈ t, (digitValue c).isSome := by
  cases t with
  | nil => cases h
  | cons c cs => exact digitValue_isSome_of_decimalFrom h

/-- A character that is no digit does not occur in a decimal number. -/
theorem not_mem_of_decimal {t : Text} {n : Nat} (h : decimal t = some n) {c : Char}
    (hc : digitValue c = none) : c ∉ t := fun hm => by
  have := digitValue_isSome_of_decimal h c hm
  rw [hc] at this; cases this

/-- Digits without a sign are worth their number. -/
theorem offsetValue_of_decimal {digits : Text} {n : Nat} (h : decimal digits = some n) :
    offsetValue digits = some (n : Int) := by
  unfold offsetValue
  split
  · exact absurd List.mem_cons_self (not_mem_of_decimal h (by decide))
  · rw [h]; rfl

/-- Digits after a minus sign are worth the negative number. -/
theorem offsetValue_of_minus {digits : Text} {n : Nat} (h : decimal digits = some n) :
    offsetValue ('-' :: digits) = some (-(n : Int)) := by
  rw [offsetValue, h]; rfl

/-- An offset is digits, or a minus sign and digits, and nothing else. -/
theorem offsetValue_eq_some_iff (o : Text) (v : Int) : offsetValue o = some v ↔
    ∃ digits n, decimal digits = some n ∧ (o = digits ∧ v = n ∨ o = '-' :: digits ∧ v = -(n : Int)) := by
  constructor
  · intro h
    unfold offsetValue at h
    split at h <;> obtain ⟨n, hn, rfl⟩ := Option.map_eq_some_iff.1 h
    · exact ⟨_, n, hn, .inr ⟨rfl, rfl⟩⟩
    · exact ⟨_, n, hn, .inl ⟨rfl, rfl⟩⟩
  · rintro ⟨digits, n, hn, ⟨rfl, rfl⟩ | ⟨rfl, rfl⟩⟩
    · exact offsetValue_of_decimal hn
    · exact offsetValue_of_minus hn

/-- An offset holds no parenthesis. -/
theorem not_mem_of_offsetValue {o : Text} {v : Int} (h : offsetValue o = some v) : '(' ∉ o := by
  obtain ⟨digits, n, hn, ⟨rfl, -⟩ | ⟨rfl, -⟩⟩ := (offsetValue_eq_some_iff o v).1 h
  · exact not_mem_of_decimal hn (by decide)
  · simp [not_mem_of_decimal hn (c := '(') (by decide)]

theorem parseOffset_of_offsetValue {o : Text} {v : Int} (h : offsetValue o = some v) :
    parseOffset o = some (BitVec.ofInt 32 v) := by rw [parseOffset, h]; rfl

/-- What fits, for a memory operand that is well formed: the offset as written. -/
theorem writtenOffsetFits_of_offsetValue {o : Text} {v : Int} (h : offsetValue o = some v) (r : Text) :
    writtenOffsetFits (o ++ ['('] ++ r ++ [')']) = decide (-32768 ≤ v ∧ v ≤ 32767) := by
  rw [writtenOffsetFits, (splitMemOperand_eq_some_iff _ o r).2 ⟨rfl, not_mem_of_offsetValue h⟩]
  simp only [h]

/-- An offset that fits as written is still the same value in the 16-bit field. -/
theorem offsetFits_ofInt {v : Int} (h : -32768 ≤ v ∧ v ≤ 32767) : offsetFits (BitVec.ofInt 32 v) = true := by
  have e : (BitVec.ofInt 16 v).toInt = v := by
    rw [BitVec.toInt_ofInt]; exact Int.bmod_eq_of_le (by omega) (by omega)
  have : BitVec.ofInt 32 v = signedOffset (BitVec.ofInt 16 v) := by
    rw [signedOffset, BitVec.signExtend, e]
  rw [this]; exact offsetFits_signedOffset _

end Machine

end Sys2Proof
end

