-- ==== Sys2Proof/Laws/PerInstr.lean ====
section
/-! SUPPORT. The family SelectsItsRow: the word of a well-formed instruction selects its own row of the
opcode table and no other (`30_encoding.md` R91 to R95, R97). -/

namespace Sys2Proof.Laws.SelectsItsRow

/-- The word of `i` selects exactly the rows whose mnemonic is that of `i`. -/
def Statement (i : Instr) : Prop :=
  i.wellFormed = true → ∀ row ∈ opcodeRows, (row.selects (encode i) = true ↔ row.mnemonic = i.mnemonic)

/-- The masked bits of a word are its fixed fields: the R format. -/
theorem mask_rFormat (rs rt rd : RegIdx) (f : BitVec 6) :
    rFormat rs rt rd f &&& 0xFC0007FF#32 = rFormat 0#5 0#5 0#5 f := by
  refine BitVec.eq_of_getLsbD_eq fun i hi => ?_
  simp only [rFormat, BitVec.getLsbD_and, BitVec.getLsbD_append]
  interval_cases i <;> simp

/-- The opcode bits of an R-format word are 0. -/
theorem opcode_mask_rFormat (rs rt rd : RegIdx) (f : BitVec 6) :
    rFormat rs rt rd f &&& 0xFC000000#32 = 0#32 := by
  refine BitVec.eq_of_getLsbD_eq fun i hi => ?_
  simp only [rFormat, BitVec.getLsbD_and, BitVec.getLsbD_append]
  interval_cases i <;> simp

/-- The masked bits of a word are its fixed fields: the I format. -/
theorem mask_iFormat (op : BitVec 6) (base rt : RegIdx) (imm : BitVec 16) :
    iFormat op base rt imm &&& 0xFC000000#32 = iFormat op 0#5 0#5 0#16 := by
  refine BitVec.eq_of_getLsbD_eq fun i hi => ?_
  simp only [iFormat, BitVec.getLsbD_and, BitVec.getLsbD_append]
  interval_cases i <;> simp

/-- An I-format word whose opcode is not 000000 selects no R-format row. -/
theorem iFormat_not_rRow {op : BitVec 6} (hop : op ≠ 0b000000#6) (base rt : RegIdx) (imm : BitVec 16)
    (f : BitVec 6) : iFormat op base rt imm &&& 0xFC0007FF#32 ≠ rFormat 0#5 0#5 0#5 f := by
  intro h
  have hmask : iFormat op base rt imm &&& 0xFC000000#32 = 0#32 := by
    have := congrArg (· &&& 0xFC000000#32) h
    simp only [BitVec.and_assoc, opcode_mask_rFormat] at this
    simpa using this
  rw [mask_iFormat] at hmask
  refine hop ?_
  rw [← fieldOpcode_iFormat op 0#5 0#5 0#16, hmask]
  rfl

theorem add (rd rs rt : RegIdx) : Statement (.add rd rs rt) := by
  intro _
  simp only [opcodeRows, OpcodeRow.selects, encode, Instr.mnemonic, List.forall_mem_cons,
    mask_rFormat, opcode_mask_rFormat]
  exact ⟨by decide, by decide, by decide, by decide, by simp⟩

theorem sub (rd rs rt : RegIdx) : Statement (.sub rd rs rt) := by
  intro _
  simp only [opcodeRows, OpcodeRow.selects, encode, Instr.mnemonic, List.forall_mem_cons,
    mask_rFormat, opcode_mask_rFormat]
  exact ⟨by decide, by decide, by decide, by decide, by simp⟩

theorem lw (rt : RegIdx) (off : Word) (base : RegIdx) : Statement (.lw rt off base) := by
  intro _
  have h := iFormat_not_rRow (op := 0b100011#6) (by decide) base rt (off.extractLsb' 0 16)
  have hadd := h 0b100000#6
  have hsub := h 0b100010#6
  simp only [opcodeRows, OpcodeRow.selects, encode, Instr.mnemonic, List.forall_mem_cons, mask_iFormat,
    beq_iff_eq]
  exact ⟨iff_of_false hadd (by decide), iff_of_false hsub (by decide), by decide, by decide, by simp⟩

theorem sw (rt : RegIdx) (off : Word) (base : RegIdx) : Statement (.sw rt off base) := by
  intro _
  have h := iFormat_not_rRow (op := 0b101011#6) (by decide) base rt (off.extractLsb' 0 16)
  have hadd := h 0b100000#6
  have hsub := h 0b100010#6
  simp only [opcodeRows, OpcodeRow.selects, encode, Instr.mnemonic, List.forall_mem_cons, mask_iFormat,
    beq_iff_eq]
  exact ⟨iff_of_false hadd (by decide), iff_of_false hsub (by decide), by decide, by decide, by simp⟩

theorem unrecognized : Statement .unrecognized := by
  intro _
  simp only [opcodeRows, OpcodeRow.selects, encode, Config.canonicalNop, List.forall_mem_cons]
  decide

end Sys2Proof.Laws.SelectsItsRow
end

