-- ==== Sys2Proof/Laws/Stages.lean ====
section
/-! SUPPORT. What each sub-step, the cycle and the step can do, said once (`44_pipeline_sequencer.md` R171
to R179). -/

namespace Sys2Proof.Machine

/-! Write-back and Memory-access: what they leave alone, and their whole effect on typed slots. -/

@[simp] theorem writeBackStage_regs (s : State) : (writeBackStage s).regs = s.regs := by
  unfold writeBackStage writebackNoop; split <;> rfl

@[simp] theorem writeBackStage_mem (s : State) : (writeBackStage s).mem = s.mem := by
  unfold writeBackStage writebackNoop; split <;> rfl

@[simp] theorem writeBackStage_keys (s : State) : (writeBackStage s).keys = s.keys := by
  unfold writeBackStage writebackNoop; split <;> rfl

@[simp] theorem writeBackStage_pc (s : State) : (writeBackStage s).pc = s.pc := by
  unfold writeBackStage writebackNoop; split <;> rfl

@[simp] theorem writeBackStage_hist (s : State) : (writeBackStage s).hist = s.hist := by
  unfold writeBackStage writebackNoop; split <;> rfl

@[simp] theorem writeBackStage_latch (s : State) : (writeBackStage s).latch = s.latch := by
  unfold writeBackStage writebackNoop; split <;> rfl

@[simp] theorem writeBackStage_imem (s : State) : (writeBackStage s).imem = s.imem := by
  unfold writeBackStage writebackNoop; split <;> rfl

@[simp] theorem writeBackStage_slots_s0 (s : State) : (writeBackStage s).slots.s0 = s.slots.s0 := by
  unfold writeBackStage writebackNoop; split <;> rfl

@[simp] theorem writeBackStage_slots_s1 (s : State) : (writeBackStage s).slots.s1 = s.slots.s1 := by
  unfold writeBackStage writebackNoop; split <;> rfl

@[simp] theorem writeBackStage_slots_s2 (s : State) : (writeBackStage s).slots.s2 = s.slots.s2 := by
  unfold writeBackStage writebackNoop; split <;> rfl

@[simp] theorem writeBackStage_slots_s3 (s : State) : (writeBackStage s).slots.s3 = s.slots.s3 := by
  unfold writeBackStage writebackNoop; split <;> rfl

@[simp] theorem memoryAccessStage_regs (s : State) : (memoryAccessStage s).regs = s.regs := by
  unfold memoryAccessStage; split <;> rfl

@[simp] theorem memoryAccessStage_mem (s : State) : (memoryAccessStage s).mem = s.mem := by
  unfold memoryAccessStage; split <;> rfl

@[simp] theorem memoryAccessStage_keys (s : State) : (memoryAccessStage s).keys = s.keys := by
  unfold memoryAccessStage; split <;> rfl

@[simp] theorem memoryAccessStage_pc (s : State) : (memoryAccessStage s).pc = s.pc := by
  unfold memoryAccessStage; split <;> rfl

@[simp] theorem memoryAccessStage_hist (s : State) : (memoryAccessStage s).hist = s.hist := by
  unfold memoryAccessStage; split <;> rfl

@[simp] theorem memoryAccessStage_retired (s : State) : (memoryAccessStage s).retired = s.retired := by
  unfold memoryAccessStage; split <;> rfl

@[simp] theorem memoryAccessStage_latch (s : State) : (memoryAccessStage s).latch = s.latch := by
  unfold memoryAccessStage; split <;> rfl

@[simp] theorem memoryAccessStage_imem (s : State) : (memoryAccessStage s).imem = s.imem := by
  unfold memoryAccessStage; split <;> rfl

@[simp] theorem memoryAccessStage_slots_s0 (s : State) : (memoryAccessStage s).slots.s0 = s.slots.s0 := by
  unfold memoryAccessStage; split <;> rfl

@[simp] theorem memoryAccessStage_slots_s1 (s : State) : (memoryAccessStage s).slots.s1 = s.slots.s1 := by
  unfold memoryAccessStage; split <;> rfl

@[simp] theorem memoryAccessStage_slots_s2 (s : State) : (memoryAccessStage s).slots.s2 = s.slots.s2 := by
  unfold memoryAccessStage; split <;> rfl

theorem writeBackStage_of_typed {s : State} (h : s.slots.s4.emptyOrDec) :
    writeBackStage s = { s with
      retired := s.retired ++ s.slots.s4.decodedOccupant
      slots := { s.slots with s4 := .empty } } := by
  obtain ⟨regs, mem, keys, pc, ⟨s0, s1, s2, s3, s4⟩, hist, retired, latch, imem⟩ := s
  cases s4 with
  | empty => simp [writeBackStage, Slot.decodedOccupant]
  | raw i => cases h
  | dec d => rfl

theorem memoryAccessStage_of_typed {s : State} (h : s.slots.s3.emptyOrDec) (h4 : s.slots.s4 = .empty) :
    memoryAccessStage s = { s with slots := { s.slots with s3 := .empty, s4 := s.slots.s3 } } := by
  obtain ⟨regs, mem, keys, pc, ⟨s0, s1, s2, s3, s4⟩, hist, retired, latch, imem⟩ := s
  cases s3 with
  | empty => simp only at h4; simp [memoryAccessStage, h4]
  | raw i => cases h
  | dec d => rfl

/-- The first two sub-steps together, on typed slots: slots 3 and 4 move on, slot 4 retires. -/
theorem memoryAccess_writeBack_of_typed {s : State} (h : s.slots.typed) :
    memoryAccessStage (writeBackStage s) = { s with
      retired := s.retired ++ s.slots.s4.decodedOccupant
      slots := { s.slots with s3 := .empty, s4 := s.slots.s3 } } := by
  rw [writeBackStage_of_typed h.2.2.2.2, memoryAccessStage_of_typed] <;> simp [h.2.2.2.1]

/-! Execute. -/

/-- Everything the Execute sub-step can do. -/
theorem executeStage_cases (s : State) :
    ((∀ d, s.slots.s2 ≠ .dec d) ∧ executeStage s = .next s) ∨
    (∃ d k, s.slots.s2 = .dec d ∧ resolve d = .error k ∧
      executeStage s = .next (s.raise k (.dec d))) ∨
    (∃ d i t, s.slots.s2 = .dec d ∧ resolve d = .ok i ∧ exec i s = .next t ∧
      executeStage s = .next (t.moveExecuted d)) := by
  unfold executeStage
  split
  · next d hd =>
    split
    · next k hk => exact .inr (.inl ⟨d, k, hd, hk, rfl⟩)
    · next i hi =>
      obtain ⟨t, ht, -⟩ := exec_frame i s
      exact .inr (.inr ⟨d, i, t, hd, hi, ht, by rw [ht]⟩)
  · next hne => exact .inl ⟨fun d hd => hne d hd, rfl⟩

theorem executeStage_of_ok {s t : State} {d : Decoded} {i : Instr} (hd : s.slots.s2 = .dec d)
    (hi : resolve d = .ok i) (ht : exec i s = .next t) :
    executeStage s = .next (t.moveExecuted d) := by
  simp only [executeStage, hd, hi, ht]

theorem executeStage_of_error {s : State} {d : Decoded} {k : FaultKind} (hd : s.slots.s2 = .dec d)
    (hk : resolve d = .error k) : executeStage s = .next (s.raise k (.dec d)) := by
  simp only [executeStage, hd, hk]

theorem executeStage_of_empty {s : State} (h : s.slots.s2 = .empty) : executeStage s = .next s := by
  simp only [executeStage, h]

/-- What the Execute sub-step keeps, whichever way it goes. -/
theorem executeStage_frame {s t : State} (h : executeStage s = .next t) :
    t.pc = s.pc ∧ t.hist = s.hist ∧ t.retired = s.retired ∧ t.imem = s.imem ∧
      t.slots.s0 = s.slots.s0 ∧ t.slots.s1 = s.slots.s1 ∧ t.slots.s4 = s.slots.s4 := by
  rcases executeStage_cases s with ⟨-, e⟩ | ⟨d, k, -, -, e⟩ | ⟨d, i, u, -, -, hu, e⟩
  · rw [e] at h; cases h; exact ⟨rfl, rfl, rfl, rfl, rfl, rfl, rfl⟩
  · rw [e] at h; cases h; exact ⟨rfl, rfl, rfl, rfl, rfl, rfl, rfl⟩
  · rw [e] at h; cases h
    obtain ⟨u', hu', hpc, hsl, hh, hr, -, hi⟩ := exec_frame i s
    rw [hu] at hu'; cases hu'
    simp [hpc, hsl, hh, hr, hi]

/-! Decode, Fetch, Record. -/

@[simp] theorem decodeStage_regs (s : State) : (decodeStage s).regs = s.regs := by
  unfold decodeStage; split
  · split <;> rfl
  · rfl

@[simp] theorem decodeStage_mem (s : State) : (decodeStage s).mem = s.mem := by
  unfold decodeStage; split
  · split <;> rfl
  · rfl

@[simp] theorem decodeStage_keys (s : State) : (decodeStage s).keys = s.keys := by
  unfold decodeStage; split
  · split <;> rfl
  · rfl

@[simp] theorem decodeStage_pc (s : State) : (decodeStage s).pc = s.pc := by
  unfold decodeStage; split
  · split <;> rfl
  · rfl

@[simp] theorem decodeStage_hist (s : State) : (decodeStage s).hist = s.hist := by
  unfold decodeStage; split
  · split <;> rfl
  · rfl

@[simp] theorem decodeStage_retired (s : State) : (decodeStage s).retired = s.retired := by
  unfold decodeStage; split
  · split <;> rfl
  · rfl

@[simp] theorem decodeStage_imem (s : State) : (decodeStage s).imem = s.imem := by
  unfold decodeStage; split
  · split <;> rfl
  · rfl

@[simp] theorem decodeStage_slots_s0 (s : State) : (decodeStage s).slots.s0 = s.slots.s0 := by
  unfold decodeStage; split
  · split <;> rfl
  · rfl

@[simp] theorem decodeStage_slots_s3 (s : State) : (decodeStage s).slots.s3 = s.slots.s3 := by
  unfold decodeStage; split
  · split <;> rfl
  · rfl

@[simp] theorem decodeStage_slots_s4 (s : State) : (decodeStage s).slots.s4 = s.slots.s4 := by
  unfold decodeStage; split
  · split <;> rfl
  · rfl

@[simp] theorem fetchStage_regs (s : State) : (fetchStage s).regs = s.regs := by
  unfold fetchStage; split <;> rfl

@[simp] theorem fetchStage_mem (s : State) : (fetchStage s).mem = s.mem := by
  unfold fetchStage; split <;> rfl

@[simp] theorem fetchStage_keys (s : State) : (fetchStage s).keys = s.keys := by
  unfold fetchStage; split <;> rfl

@[simp] theorem fetchStage_hist (s : State) : (fetchStage s).hist = s.hist := by
  unfold fetchStage; split <;> rfl

@[simp] theorem fetchStage_retired (s : State) : (fetchStage s).retired = s.retired := by
  unfold fetchStage; split <;> rfl

@[simp] theorem fetchStage_latch (s : State) : (fetchStage s).latch = s.latch := by
  unfold fetchStage; split <;> rfl

@[simp] theorem fetchStage_imem (s : State) : (fetchStage s).imem = s.imem := by
  unfold fetchStage; split <;> rfl

@[simp] theorem fetchStage_slots_s0 (s : State) : (fetchStage s).slots.s0 = s.slots.s0 := by
  unfold fetchStage; split <;> rfl

@[simp] theorem fetchStage_slots_s2 (s : State) : (fetchStage s).slots.s2 = s.slots.s2 := by
  unfold fetchStage; split <;> rfl

@[simp] theorem fetchStage_slots_s3 (s : State) : (fetchStage s).slots.s3 = s.slots.s3 := by
  unfold fetchStage; split <;> rfl

@[simp] theorem fetchStage_slots_s4 (s : State) : (fetchStage s).slots.s4 = s.slots.s4 := by
  unfold fetchStage; split <;> rfl

/-- Everything the Decode sub-step can do. -/
theorem decodeStage_cases (s : State) :
    ((∀ i, s.slots.s1 ≠ .raw i) ∧ decodeStage s = s) ∨
    (∃ i k, s.slots.s1 = .raw i ∧ decodeRaw i = .error k ∧ decodeStage s = s.raise k (.raw i)) ∨
    (∃ i d, s.slots.s1 = .raw i ∧ decodeRaw i = .ok d ∧
      decodeStage s = { s with slots := { s.slots with s1 := .empty, s2 := .dec d } }) := by
  unfold decodeStage
  split
  · next i hi =>
    split
    · next k hk => exact .inr (.inl ⟨i, k, hi, hk, rfl⟩)
    · next d hd => exact .inr (.inr ⟨i, d, hi, hd, rfl⟩)
  · next hne => exact .inl ⟨fun i hi => hne i hi, rfl⟩

/-- Everything the Fetch sub-step can do. -/
theorem fetchStage_cases (s : State) :
    (s.programLength ≤ s.pc.toNat ∧ fetchStage s = s) ∨
    (∃ i, s.imem[s.pc.toNat]? = some i ∧ s.pc.toNat < s.programLength ∧
      fetchStage s = { s with slots := { s.slots with s1 := .raw i }, pc := s.pc + 1#32 }) := by
  unfold fetchStage
  split
  · next i hi => exact .inr ⟨i, hi, (List.getElem?_eq_some_iff.1 hi).1, rfl⟩
  · next hn => exact .inl ⟨List.getElem?_eq_none_iff.1 hn, rfl⟩

/-! The cycle and the step. -/

/-- Everything a cycle can do: it ends at a raise of the Execute sub-step, or goes on to the last three. -/
theorem cycle_cases (s : State) :
    ∃ u, executeStage (memoryAccessStage (writeBackStage s)) = .next u ∧
      ((u.faulted = true ∧ cycle s = .next u) ∨ (u.faulted = false ∧ cycle s = .next (frontEnd u))) := by
  have answers : ∃ u, executeStage (memoryAccessStage (writeBackStage s)) = .next u := by
    rcases executeStage_cases (memoryAccessStage (writeBackStage s)) with
      ⟨-, e⟩ | ⟨_, _, -, -, e⟩ | ⟨_, _, _, -, -, -, e⟩ <;> exact ⟨_, e⟩
  obtain ⟨u, hu⟩ := answers
  refine ⟨u, hu, ?_⟩
  cases hf : u.faulted
  · exact .inr ⟨rfl, by simp [cycle, hu, hf]⟩
  · exact .inl ⟨rfl, by simp [cycle, hu, hf]⟩

/-- A step always answers a next state: the hardware has no other outcome. -/
theorem step_answers (s : State) : ∃ t, step s = .next t := by
  unfold step
  split
  · obtain ⟨u, -, ⟨-, h⟩ | ⟨-, h⟩⟩ := cycle_cases s <;> exact ⟨_, h⟩
  · exact ⟨s, rfl⟩

theorem step_of_busy {s : State} (h : s.busy = true) : step s = cycle s := by simp [step, h]

theorem step_of_not_busy {s : State} (h : s.busy = false) : step s = .next s := by simp [step, h]

theorem State.busy_iff (s : State) : s.busy = true ↔ s.halted = false ∧ s.latch = none := by
  simp [State.busy, State.faulted]

theorem State.faulted_iff (s : State) : s.faulted = false ↔ s.latch = none := by
  simp [State.faulted]

theorem State.halted_iff (s : State) :
    s.halted = true ↔ s.slots = Slots.allEmpty ∧ s.pc.toNat = s.programLength := by
  simp [State.halted, Slots.isEmpty]

/-- An occupied slot 2 keeps the machine from being halted. -/
theorem State.not_halted_of_slot_two {s : State} {d : Decoded} (h : s.slots.s2 = .dec d) :
    s.halted = false := by
  rw [← Bool.not_eq_true, State.halted_iff]
  rintro ⟨hs, -⟩
  rw [hs] at h
  cases h

theorem runFor_succ_of_step {s t : State} (h : step s = .next t) (n : Nat) :
    runFor (n + 1) s = runFor n t := by
  simp only [runFor, h]

/-- One more step at the end of a run. -/
theorem runFor_succ (n : Nat) (s : State) :
    ∃ u t, runFor n s = .next u ∧ step u = .next t ∧ runFor (n + 1) s = .next t := by
  induction n generalizing s with
  | zero =>
    obtain ⟨t, ht⟩ := step_answers s
    exact ⟨s, t, rfl, ht, runFor_succ_of_step ht 0⟩
  | succ n ih =>
    obtain ⟨s', hs'⟩ := step_answers s
    obtain ⟨u, t, h1, h2, h3⟩ := ih s'
    exact ⟨u, t, (runFor_succ_of_step hs' n).trans h1, h2, (runFor_succ_of_step hs' (n + 1)).trans h3⟩

/-- The state two cycles after a one-word program is launched on the registers and memory of `s` is the
state `withWordDecoded` writes down. -/
theorem step_step_eq_withWordDecoded (w : Word) (s : State) (h : s.Launched) (hp : s.imem = [.word w]) :
    ∃ t, step s = .next t ∧ step t = .next (s.withWordDecoded w) := by
  obtain ⟨regs, mem, keys, pc, slots, hist, retired, latch, imem⟩ := s
  obtain ⟨rfl, rfl, rfl, rfl, rfl, -⟩ := h
  cases hp
  exact ⟨_, rfl, rfl⟩

end Sys2Proof.Machine
end

