-- ==== Sys2Proof/Tests/Slice0.lean ====
section
/-! SUPPORT. Tests on small states, each of one decode or one step; expected results are those of
spec/95_test_vectors.md and of the rules named. At the end, one witness for each statement of
Certificates/Slice0/Obligations.lean that has hypotheses. -/

namespace Sys2Proof.Tests

open Sys2Proof.Machine

/-! Well-formedness (`30_encoding.md` R90, R101 b). -/

theorem test_wf_accepts_offset_range :
    (Instr.lw 1 0xFFFF8000#32 0).wellFormed = true ∧ (Instr.sw 1 0x00007FFF#32 0).wellFormed = true := by
  decide

theorem test_wf_refuses_lw_offset_32768 : (Instr.lw 1 0x00008000#32 0).wellFormed = false := by decide

theorem test_wf_refuses_sw_offset_below : (Instr.sw 1 0xFFFF7FFF#32 0).wellFormed = false := by decide

/-! Decoding of words (95 section 2.1). -/

theorem test_decode_add : decodeWord 0x00221820#32 = .add 3 1 2 ∧ decodeWord 0x00430820#32 = .add 1 2 3 ∧
    decodeWord 0x03FFF820#32 = .add 31 31 31 := by decide

theorem test_decode_sub : decodeWord 0x00020822#32 = .sub 1 0 2 ∧ decodeWord 0x00A52822#32 = .sub 5 5 5 := by
  decide

theorem test_decode_lw : decodeWord 0x8C010000#32 = .lw 1 0 0 ∧ decodeWord 0x8C020004#32 = .lw 2 4 0 ∧
    decodeWord 0x8CA4FFFC#32 = .lw 4 0xFFFFFFFC 5 ∧ decodeWord 0x8C007FFF#32 = .lw 0 0x7FFF 0 ∧
    decodeWord 0x8C008000#32 = .lw 0 0xFFFF8000 0 := by decide

theorem test_decode_sw : decodeWord 0xAC030008#32 = .sw 3 8 0 ∧
    decodeWord 0xAC03FFFF#32 = .sw 3 0xFFFFFFFF 0 := by decide

theorem test_decode_unrecognized :
    [0x00000000#32, 0xFFFFFFFF#32, 0x00221860#32, 0x00221821#32, 0x00221824#32, 0x20010005#32, 0x10000001#32,
      0x0000000C#32, 0x80010000#32, 0xA0010000#32].map decodeWord = List.replicate 10 .unrecognized := by
  decide

/-- Words written out bit by bit from `30_encoding.md` R91 to R94. -/
theorem test_decode_bits :
    decodeWord 0b00000000001000100001100000100000#32 = .add 3 1 2 ∧
    decodeWord 0b00000000000000100000100000100010#32 = .sub 1 0 2 ∧
    decodeWord 0b10001100101001001111111111111100#32 = .lw 4 0xFFFFFFFC 5 ∧
    decodeWord 0b10101100000000110000000000001000#32 = .sw 3 8 0 := by decide

theorem test_encode_examples : encode (.add 3 1 2) = 0x00221820#32 ∧ encode (.sub 1 0 2) = 0x00020822#32 ∧
    encode (.lw 4 0xFFFFFFFC 5) = 0x8CA4FFFC#32 ∧ encode (.sw 3 8 0) = 0xAC030008#32 ∧
    encode .unrecognized = 0x00000000#32 := by decide

theorem test_table_word : decodeTableWord 32 0x8CA4FFFC = some (.lw 4 0xFFFFFFFC 5) ∧
    decodeTableWord 33 0 = none := by decide

/-! Decoding and resolving of records (95 section 2.2). -/

/-- What a record comes to: its instruction, or the kind of its fault. -/
def resolved (t : String) : Except FaultKind Instr :=
  match resolveRaw (.record t.toList) with
  | .ok i => .ok i
  | .error f => .error f.kind

theorem test_record_trims : decodeRecord "ADD $r3, $r1 ,$r2".toList =
    .ok (.pair "ADD".toList ["$r3".toList, "$r1".toList, "$r2".toList]) := by decide

theorem test_record_good : resolved "LW $r1,0($r0)" = .ok (.lw 1 0 0) ∧
    resolved "SW $r3,-1($r0)" = .ok (.sw 3 0xFFFFFFFF 0) ∧
    resolved "ADD $r3, $r1 ,$r2" = .ok (.add 3 1 2) := by decide

theorem test_record_unrecognized : resolved "MUL $r1,$r2,$r3" = .ok .unrecognized ∧
    resolved "add $r1,$r2,$r3" = .ok .unrecognized ∧ resolved "NOP x" = .ok .unrecognized ∧
    resolved " x" = .ok .unrecognized := by decide

theorem test_record_arity : resolved "ADD " = .error .operandArityError ∧
    resolved "ADD $r1,$r2" = .error .operandArityError ∧
    resolved "LW $r4,0($r0),$r5" = .error .operandArityError := by decide

theorem test_record_form : resolved "ADD $r1,$r2,$r32" = .error .operandFormError ∧
    resolved "ADD $r1,$r2,$r01" = .error .operandFormError ∧
    resolved "LW $r4,0" = .error .operandFormError ∧
    resolved "LW $r4,+4($r0)" = .error .operandFormError := by decide

theorem test_record_format : resolved "NOP" = .error .formatError ∧
    resolved "ADD$r1,$r2,$r3" = .error .formatError ∧ resolved "" = .error .formatError := by decide

theorem test_record_text : recordText (.lw 4 0xFFFFFFFC 5) = "LW $r4,-4($r5)".toList ∧
    assemble "LW $r4,32768($r5)".toList = none := by decide

/-- R101 (b): the offset as written decides, not what it is modulo 2^32. -/
theorem test_assemble_offset_as_written : assemble "LW $r1,4294967296($r0)".toList = none ∧
    assemble "LW $r1,4294967295($r0)".toList = none ∧ assemble "SW $r1,-32769($r0)".toList = none ∧
    assemble "SW $r1,-32768($r0)".toList = some 0xAC018000#32 ∧
    assemble "LW $r1,32767($r0)".toList = some 0x8C017FFF#32 ∧
    resolved "LW $r1,4294967296($r0)" = .ok (.lw 1 0 0) := by decide

/-- R101 (a), (c). -/
theorem test_assemble_unrecognized_and_malformed : assemble "MUL $r1,$r2,$r3".toList = some 0#32 ∧
    assemble "NOP".toList = none ∧ assemble "LW $r1".toList = none ∧
    assemble "ADD $r1,$r2,7".toList = none := by decide

/-! One instruction at a time (95 sections 2.3, 2.4). -/

/-- The next state, where the outcome is one. -/
def nextOf : Host.Outcome State Fault Refusal → Option State
  | .next s => some s
  | .fault _ => none
  | .refused _ => none

/-- Reset with registers and cells preloaded. -/
def withValues (regs : List (RegIdx × Word)) (cells : List (Word × Word)) : State :=
  State.preloadCells cells (State.preloadRegs regs State.reset)

theorem test_add_wraps : (nextOf (exec (.add 1 2 3) (withValues [(2, 0x7FFFFFFF), (3, 1)] []))).map
    (State.readReg · 1) = some 0x80000000#32 := by decide

theorem test_add_writes_register_zero : (nextOf (exec (.add 0 1 1) (withValues [(1, 0xFFFFFFFF)] []))).map
    (State.readReg · 0) = some 0xFFFFFFFE#32 := by decide

theorem test_sub_order : (nextOf (exec (.sub 1 2 3) (withValues [(2, 5), (3, 7)] []))).map
    (State.readReg · 1) = some 0xFFFFFFFE#32 := by decide

theorem test_sub_destination_is_subtrahend : (nextOf (exec (.sub 1 2 1) (withValues [(1, 3), (2, 10)] []))).map
    (State.readReg · 1) = some 7#32 := by decide

theorem test_lw_address_wraps : (nextOf (exec (.lw 1 8 2) (withValues [(2, 0xFFFFFFFC)] [(4, 0x44)]))).map
    (State.readReg · 1) = some 0x44#32 := by decide

theorem test_lw_default_and_no_key :
    (nextOf (exec (.lw 1 0 2) (withValues [(1, 0xDEAD), (2, 3)] []))).map
      (fun s => (s.readReg 1, s.keys)) = some (0#32, []) := by decide

theorem test_sw_cells_do_not_overlap :
    (nextOf (exec (.sw 1 1 0) (withValues [(1, 0x11)] [(0, 0x22), (4, 0x44)]))).map State.memoryMapping =
      some [(0, 0x22#32), (1, 0x11#32), (4, 0x44#32)] := by decide

theorem test_sw_zero_is_an_entry : (nextOf (exec (.sw 0 0 0) (withValues [] []))).map
    (fun s => (s.keys, s.mem)) = some ([0], []) := by decide

theorem test_unrecognized_changes_nothing :
    nextOf (exec .unrecognized (withValues [(1, 5)] [(4, 7)])) = some (withValues [(1, 5)] [(4, 7)]) := by decide

/-! One cycle. -/

/-- A machine after two cycles of its program: two records, slot 1 raw, slot 2 decoded (R183). -/
def afterTwo (program : List RawInstr) (regs : List (RegIdx × Word)) : State :=
  { withValues regs [] with
    pc := BitVec.ofNat 32 (min program.length 2)
    slots := recordAt program 2
    hist := [recordAt program 1, recordAt program 2]
    imem := program }

/-- The program of spec/95 P3, first three words. -/
def words : List RawInstr := [.word 0x00020822#32, .word 0x00000000#32, .word 0x00210020#32]

/-- Cycle 3 of P3: k0 executes and moves to slot 3, k1 is decoded to `Nop`, k2 is fetched. -/
theorem test_cycle_of_words :
    (nextOf (step (afterTwo words [(2, 1)]))).map (fun s => (s.readReg 1, s.pc, s.slots, s.hist.length)) =
      some (0xFFFFFFFF#32, 3#32,
        ⟨.empty, .raw (.word 0x00210020#32), .dec (.op .unrecognized), .dec (.op (.sub 1 0 2)), .empty⟩, 3) := by
  decide

/-- The third program of spec/95 section 2.6. -/
def formatFault : List RawInstr := [.record "ADD $r1,$r2,$r3".toList, .record "NOP".toList]

/-- The FormatError of the younger record is latched after the older one has executed. -/
theorem test_format_fault_cycle :
    (nextOf (step (afterTwo formatFault [(2, 1), (3, 2)]))).map
      (fun s => (s.readReg 1, s.faultCode, s.slots.s1, s.hist.length)) =
      some (3#32, 1#2, .raw (.record "NOP".toList), 2) := by decide

/-- The fourth program of spec/95 section 2.6. -/
def operandFault : List RawInstr := [.record "ADD $r1,$r2".toList, .record "NOP".toList]

/-- The older instruction's operand fault wins, and nothing is executed or recorded. -/
theorem test_operand_fault_cycle :
    (nextOf (step (afterTwo operandFault [(2, 1)]))).map
      (fun s => (s.readReg 1, s.faultCode, s.slots, s.hist.length)) =
      some (0#32, 2#2, (afterTwo operandFault [(2, 1)]).slots, 2) := by decide

theorem test_reset_is_halted : State.reset.halted = true ∧ nextOf (step State.reset) = some State.reset := by
  decide

theorem test_placed_word_runs :
    (nextOf (step ((withValues [(2, 10), (3, 20)] []).withFetchWord 32 0x00430820))).map
      (State.readReg · 1) = some 30#32 := by decide

/-- The placed state is the one two cycles after the launch of the one-word program. -/
theorem test_placed_word_is_reached :
    nextOf (runFor 2 { withValues [(2, 10)] [] with imem := [.word 0x00430820#32] }) =
      some ((withValues [(2, 10)] []).withFetchWord 32 0x00430820) := by decide

theorem test_ports : (afterTwo [.word 0xAC030008#32, .word 0#32] [(3, 12)]).dataPort =
      some ⟨8#32, true, some 12#32⟩ ∧
    (afterTwo [.word 0x8C010008#32] []).dataPort = some ⟨8#32, false, none⟩ ∧
    (afterTwo words []).imemAddr = some 2#32 ∧ (afterTwo words []).retirePort = none := by decide

/-! Witnesses: concrete states and operands that meet the hypotheses of each statement. -/

/-- The invariant of a small state in the middle of a run. -/
theorem afterTwo_words_inv : (afterTwo words [(2, 1)]).Inv := by
  refine ⟨⟨by decide, by decide, by decide⟩, ⟨by decide, by decide⟩, ⟨rfl, rfl, rfl, rfl, rfl⟩, ?_⟩
  refine List.forall_mem_cons.2 ⟨⟨rfl, rfl, rfl, rfl, rfl⟩, List.forall_mem_cons.2 ⟨⟨rfl, rfl, rfl, rfl, rfl⟩, ?_⟩⟩
  simp

/-- A launch state. -/
def launched (program : List RawInstr) (regs : List (RegIdx × Word)) : State :=
  { withValues regs [] with imem := program }

theorem launched_words : (launched words [(2, 1)]).Launched := ⟨rfl, rfl, rfl, rfl, rfl, by decide⟩

theorem withValues_cells_wf : (withValues [(2, 8)] [(4, 0x44), (8, 4)]).memoryWf :=
  ⟨by decide, by decide, by decide⟩

theorem test_witness_LaunchIsResetWithPreloads : words.length < Config.programLimit := by decide

theorem test_witness_HostLoadsOnlyBeforeCycleOne :
    ∃ s t, s.busy = true ∧ step s = .next t :=
  have ⟨t, ht⟩ := step_answers (afterTwo words [])
  ⟨_, t, by decide, ht⟩

theorem test_witness_SwStoresCellOnly : ∃ s : State, s.memoryWf ∧ s.mem ≠ [] :=
  ⟨_, withValues_cells_wf, by decide⟩

theorem test_witness_UnrecognizedDoesNothing :
    (∀ row ∈ opcodeRows, row.selects 0x20010005#32 = false) ∧
    "MUL".toList ∉ ["ADD".toList, "SUB".toList, "LW".toList, "SW".toList] := by decide

theorem test_witness_EffectiveAddressWraps :
    State.reset.readReg 0 = 0#32 ∧ (withValues [(2, 0xFFFFFFFC)] []).readReg 2 = 0xFFFFFFFC#32 := by decide

theorem test_witness_AddressIsBasePlusOffset :
    (withValues [(2, 8)] [(4, 0x44), (8, 4)]).memoryWf ∧ decodeWord 0x8CA4FFFC#32 = .lw 4 0xFFFFFFFC 5 ∧
    decodeWord 0xACA48000#32 = .sw 4 0xFFFF8000 5 ∧ decimal "04294967297".toList = some 4294967297 :=
  ⟨withValues_cells_wf, by decide, by decide, by decide⟩

theorem test_witness_MemoryPrimitives : ∃ s : State, s.memoryWf ∧ 0xFFFFFFFF ∉ s.keys ∧ 8 ∈ s.keys ∧
    ∀ rt off base, Instr.add 1 2 3 ≠ .lw rt off base ∧ Instr.add 1 2 3 ≠ .sw rt off base :=
  ⟨_, withValues_cells_wf, by decide, by decide, by simp⟩

theorem test_witness_SourcesReadBeforeWrite :
    (withValues [(2, 8)] [(4, 0x44), (8, 4)]).mem.wf ∧
    ∃ (s t : State) (d : Decoded) (k : FaultKind), s.slots.s2 = .dec d ∧ resolve d = .error k ∧
      executeStage s = .next t :=
  ⟨withValues_cells_wf.1, afterTwo operandFault [],
    (afterTwo operandFault []).raise .operandArityError
      (.dec (.pair "ADD".toList ["$r1".toList, "$r2".toList])),
    .pair "ADD".toList ["$r1".toList, "$r2".toList], .operandArityError, by decide, by decide,
    executeStage_of_error (d := .pair "ADD".toList ["$r1".toList, "$r2".toList])
      (k := .operandArityError) (by decide) (by decide)⟩

theorem test_witness_UnwrittenCellReadsZero : ∃ s : State, s.memoryWf ∧
    (effectiveAddress s 2 1#32).toNat ∉ s.keys ∧ s.readReg 2 = 8#32 :=
  ⟨_, withValues_cells_wf, by decide, by decide⟩

theorem test_witness_StoreAndLoadBackToBack : ∃ s t u : State, s.memoryWf ∧
    exec (.sw 2 0 2) s = .next t ∧ effectiveAddress t 2 0 = effectiveAddress s 2 0 ∧
    exec (.lw 1 0 2) s = .next u :=
  ⟨_, _, _, withValues_cells_wf, rfl, rfl, rfl⟩

theorem test_witness_ExecutorReadsAndWritesDataOnly :
    SameData (afterTwo words []) State.reset ∧ afterTwo words [] ≠ State.reset :=
  ⟨⟨rfl, rfl, rfl⟩, by decide⟩

theorem test_witness_DecodeOfEncode : (Instr.add 31 0 1).wellFormed = true ∧
    (Instr.sub 0 31 1).wellFormed = true ∧ (Instr.lw 31 0xFFFF8000 0).wellFormed = true ∧
    (Instr.sw 0 0x7FFF 31).wellFormed = true ∧ Instr.unrecognized.wellFormed = true := by decide

theorem test_witness_EncodeOfDecode : decodeWord 0x03FFF820#32 ≠ .unrecognized ∧
    decodeWord 0x8C008000#32 ≠ .unrecognized := by decide

theorem test_witness_OpcodeRowsDisjoint :
    ∀ row ∈ opcodeRows, row.selects row.pattern = true := by decide

theorem test_witness_RecordsAndWordsCorrespond :
    (Instr.lw 4 0xFFFFFFFC 5) ≠ .unrecognized ∧ (Instr.lw 4 0xFFFFFFFC 5).wellFormed = true := by decide

theorem test_witness_RecordsWithAndWithoutWord :
    decodeRecord "J 0".toList = .ok (.pair "J".toList ["0".toList]) ∧ decodeWord 0#32 = .unrecognized ∧
    decimal "32768".toList = some 32768 ∧
    decodeRecord "SW $r1,-32768($r0)".toList =
      .ok (.pair "SW".toList [regText 1, '-' :: "32768".toList ++ ['('] ++ regText 0 ++ [')']]) ∧
    decodeRecord "LW $r1,32768($r0)".toList =
      .ok (.pair "LW".toList [regText 1, "32768".toList ++ ['('] ++ regText 0 ++ [')']]) ∧
    resolveRaw (.record "NOP".toList) = .error ⟨.formatError, .raw (.record "NOP".toList)⟩ ∧
    assemble "ADD $r1,$r2,$r3".toList = some 0x00430820#32 := by decide

/-- The data memory that stands in for the state's own holds the word that `words` holds at `pc`. -/
theorem test_witness_FetchIgnoresData : ∃ s t : State, s.busy = true ∧ step s = .next t ∧
    s.regs ≠ Vector.replicate 32 7#32 ∧ s.mem ≠ [(2, 0x00210020#32)] ∧ s.keys ≠ [2] := by
  refine ⟨afterTwo words [(2, 1)], _, by decide, rfl, by decide, by decide, by decide⟩

theorem test_witness_RegisterTextsAreExact :
    (∀ r, "$r32".toList ≠ regText r) ∧ parseReg "$r31".toList = some 31#5 := by decide

theorem test_witness_MemoryOperandShape :
    parseMemOperand "-4($r5)".toList = some (0xFFFFFFFC#32, 5#5) ∧ parseOffset "-4".toList = some 0xFFFFFFFC#32 := by
  decide

theorem test_witness_FormatErrorIffNoSpace :
    ' ' ∉ "NOP".toList ∧ "LW x".toList = "LW".toList ++ ' ' :: "x".toList ∧ ' ' ∉ "LW".toList := by decide

theorem test_witness_StepRunsDecodedInstruction : ∃ t, (afterTwo words []).latch = none ∧
    (afterTwo words []).slots.s2 = .dec (.op (.sub 1 0 2)) ∧
    resolve (.op (.sub 1 0 2)) = .ok (.sub 1 0 2) ∧
    exec (.sub 1 0 2) (memoryAccessStage (writeBackStage (afterTwo words []))) = .next t :=
  ⟨_, rfl, rfl, rfl, rfl⟩

theorem test_witness_PlacedWordRunsInNextStep :
    decodeTableWord 32 0x00430820 = some (.add 1 2 3) ∧ decodeTableWord 32 0 = some .unrecognized := by decide

theorem afterTwo_words_wordLevel : (afterTwo words [(2, 1)]).wordLevel := ⟨by decide, rfl, rfl⟩

theorem test_witness_FetchedWordExecutesInThirdStep : ∃ s : State, s.Inv ∧ s.wordLevel ∧ s.latch = none ∧
    s.imem[s.pc.toNat]? = some (.word 0x00210020#32) :=
  ⟨_, afterTwo_words_inv, afterTwo_words_wordLevel, rfl, by decide⟩

theorem test_witness_StepIsParallelForm : ∃ s : State, s.busy = true ∧ s.slots.typed ∧
    (∀ d, s.slots.s2 = .dec d → ∃ i, resolve d = .ok i) ∧
    (∀ i, s.slots.s1 = .raw i → ∃ d, decodeRaw i = .ok d) ∧ s.slots.s1 ≠ .empty ∧ s.slots.s2 ≠ .empty := by
  refine ⟨afterTwo words [(2, 1)], by decide, afterTwo_words_inv.slots, ?_, ?_, by decide, by decide⟩
  · intro d hd; cases hd; exact ⟨_, rfl⟩
  · intro i hi; cases hi; exact ⟨_, rfl⟩

theorem test_witness_StoppedMachineKeepsState :
    (State.reset.slots = Slots.allEmpty ∧ State.reset.pc.toNat = State.reset.programLength) ∧
    (State.reset.raise .formatError (.raw (.record []))).latch ≠ none := by decide

theorem test_witness_OperandFaultEndsCycle : ∃ (s : State) (d : Decoded) (k : FaultKind), s.latch = none ∧
    s.slots.typed ∧ s.slots.s2 = .dec d ∧ resolve d = .error k :=
  ⟨afterTwo operandFault [], .pair "ADD".toList ["$r1".toList, "$r2".toList], .operandArityError, rfl,
    ⟨rfl, rfl, rfl, rfl, rfl⟩, by decide, by decide⟩

theorem test_witness_FormatErrorEndsCycle : ∃ (s : State) (r : RawInstr), s.latch = none ∧ s.slots.typed ∧
    (∀ d, s.slots.s2 = .dec d → ∃ i, resolve d = .ok i) ∧ s.slots.s1 = .raw r ∧
    decodeRaw r = .error .formatError := by
  refine ⟨afterTwo formatFault [], .record "NOP".toList, rfl, ⟨rfl, rfl, rfl, rfl, rfl⟩, ?_, by decide, by decide⟩
  intro d hd
  cases hd
  exact ⟨.add 1 2 3, by decide⟩

theorem test_witness_LatchRecordsItsCause :
    (nextOf (step (afterTwo operandFault []))).bind State.latch =
      some ⟨.operandArityError, (afterTwo operandFault []).slots.s2⟩ ∧
    (nextOf (step (afterTwo formatFault []))).bind State.latch =
      some ⟨.formatError, .raw (.record "NOP".toList)⟩ ∧ (afterTwo formatFault []).latch = none := by decide

theorem test_witness_LatchRecordsItsCause_stopped :
    ((afterTwo operandFault []).raise .operandArityError (afterTwo operandFault []).slots.s2).latch ≠ none := by
  decide

theorem test_witness_StepKeepsInvariant : ∃ s t : State, s.Inv ∧ s.busy = true ∧ step s = .next t :=
  have ⟨t, ht⟩ := step_answers (afterTwo words [(2, 1)])
  ⟨_, t, afterTwo_words_inv, by decide, ht⟩

theorem test_witness_WordLevelNeverFaults : ∃ s : State, s.wordLevel ∧ s.latch = none ∧ s.busy = true :=
  ⟨_, afterTwo_words_wordLevel, rfl, by decide⟩

/-- Serves ProgramNeverChanges, HistoryIsAppendOnly, HiddenStateIsNeverRead and PcAdvancesOnlyByFetch:
a completing fetch, a frozen step and a raising one. -/
theorem test_witness_steps :
    ((afterTwo words []).busy = true ∧ (nextOf (step (afterTwo words []))).map State.latch = some none ∧
      (afterTwo words []).pc.toNat < (afterTwo words []).programLength) ∧
    State.reset.busy = false ∧
    (nextOf (step (afterTwo formatFault []))).map (fun t => t.latch.isSome) = some true := by decide

/-- A store in slot 2 that changes a cell and adds a key. -/
theorem test_witness_OnlyStoresChangeMemory :
    (afterTwo [.word 0xAC030008#32] [(3, 12)]).mem.wf ∧
    (nextOf (step (afterTwo [.word 0xAC030008#32] [(3, 12)]))).map
      (fun t => (t.memRead 8, t.keys)) = some (12#32, [8]) ∧
    (afterTwo [.word 0xAC030008#32] [(3, 12)]).memRead 8 = 0#32 := by decide

theorem test_witness_OnlyDestinationRegisterChanges :
    (nextOf (step (afterTwo words [(2, 1)]))).map (State.readReg · 1) ≠
      some ((afterTwo words [(2, 1)]).readReg 1) := by decide

theorem test_witness_EffectsCommitInExecuteOnly : (launched words []).slots.s2 = .empty ∧
    (launched words []).busy = true := by decide

/-- Serves RunFollowsTimetable, CycleCountLaw, PipelineMatchesSequentialMachine and EveryRunEnds. -/
theorem test_witness_runs : ∃ s : State, s.Launched ∧ (∀ i ∈ s.imem, raisesNothing i = true) ∧
    1 ≤ s.programLength ∧ 3 ≤ s.programLength + 4 :=
  ⟨_, launched_words, by decide, by decide, by decide⟩

theorem test_witness_CycleCountLaw_empty : (launched [] []).Launched ∧ (launched [] []).programLength = 0 :=
  ⟨⟨rfl, rfl, rfl, rfl, rfl, by decide⟩, rfl⟩

theorem test_witness_FaultsArePrecise : (launched formatFault [(2, 1), (3, 2)]).Launched ∧
    (nextOf (runFor 3 (launched formatFault [(2, 1), (3, 2)]))).bind State.latch =
      some ⟨.formatError, .raw (.record "NOP".toList)⟩ :=
  ⟨⟨rfl, rfl, rfl, rfl, rfl, by decide⟩, by decide⟩

theorem test_witness_StepAdvancesTimetable : ∃ s : State, s.programLength < Config.programLimit ∧
    (∀ i ∈ s.imem, raisesNothing i = true) ∧ s.AtCycle 2 ∧ s.busy = true :=
  ⟨afterTwo words [(2, 1)], by decide, by decide, ⟨rfl, by decide, by decide, rfl, rfl⟩, by decide⟩

end Sys2Proof.Tests
end

/-! PROOFS. The statements of `10_state.md`: what a step does to each piece of state, and what it keeps.
The first part says once, for all of them, how a step is made of its sub-steps. -/

namespace Sys2Proof.Machine

/-! Where a step ends (`44_pipeline_sequencer.md` R171, R179; `60_exceptions.md` R205). -/

/-- How `step s` comes to its next state: by not running, by the raise of sub-step 3, by the raise of
sub-step 4, or by all six sub-steps. `u` is the state at the end of the Execute sub-step. -/
inductive StepForm (s : State) : State → Prop
  | stopped (hbusy : s.busy = false) : StepForm s s
  | operandFault {u : State} (hbusy : s.busy = true)
      (hexec : executeStage (memoryAccessStage (writeBackStage s)) = .next u)
      (hlatch : u.latch ≠ none) : StepForm s u
  | formatFault {u : State} (hbusy : s.busy = true)
      (hexec : executeStage (memoryAccessStage (writeBackStage s)) = .next u)
      (hnone : u.latch = none) (hlatch : (decodeStage u).latch ≠ none) : StepForm s (decodeStage u)
  | completed {u : State} (hbusy : s.busy = true)
      (hexec : executeStage (memoryAccessStage (writeBackStage s)) = .next u)
      (hnone : (decodeStage u).latch = none) : StepForm s (recordStage (fetchStage (decodeStage u)))

theorem State.faulted_eq_true_iff (s : State) : s.faulted = true ↔ s.latch ≠ none := by
  simp [State.faulted, Option.isSome_iff_ne_none]

/-- Sub-steps 4 to 6 end at the raise of a FormatError, or run to the record of the cycle. -/
theorem frontEnd_cases (u : State) :
    ((decodeStage u).latch ≠ none ∧ frontEnd u = decodeStage u) ∨
    ((decodeStage u).latch = none ∧ frontEnd u = recordStage (fetchStage (decodeStage u))) := by
  cases hf : (decodeStage u).faulted
  · exact .inr ⟨(State.faulted_iff _).1 hf, by simp [frontEnd, hf]⟩
  · exact .inl ⟨(State.faulted_eq_true_iff _).1 hf, by simp [frontEnd, hf]⟩

/-- Every step has one of the four forms. -/
theorem stepForm_of_step {s t : State} (h : step s = .next t) : StepForm s t := by
  cases hbusy : s.busy
  · rw [step_of_not_busy hbusy] at h
    cases h
    exact .stopped hbusy
  · rw [step_of_busy hbusy] at h
    obtain ⟨u, hexec, ⟨hf, hc⟩ | ⟨hf, hc⟩⟩ := cycle_cases s
    · rw [hc] at h
      cases h
      exact .operandFault hbusy hexec ((State.faulted_eq_true_iff _).1 hf)
    · rw [hc] at h
      cases h
      obtain ⟨hlatch, e⟩ | ⟨hnone, e⟩ := frontEnd_cases u <;> rw [e]
      · exact .formatFault hbusy hexec ((State.faulted_iff _).1 hf) hlatch
      · exact .completed hbusy hexec hnone

theorem State.latch_of_busy {s : State} (h : s.busy = true) : s.latch = none :=
  ((State.busy_iff s).1 h).2

theorem step_of_latched {s : State} (h : s.latch ≠ none) : step s = .next s :=
  step_of_not_busy (Bool.eq_false_iff.2 fun hb => h (State.latch_of_busy hb))

/-! Predicates that each sub-step keeps, alone and in two runs side by side. -/

/-- Each of the six sub-steps keeps the predicate. -/
structure KeptBySubSteps (P : State → Prop) : Prop where
  writeBack : ∀ {s}, P s → P (writeBackStage s)
  memoryAccess : ∀ {s}, P s → P (memoryAccessStage s)
  execute : ∀ {s t}, P s → executeStage s = .next t → P t
  decode : ∀ {s}, P s → P (decodeStage s)
  fetch : ∀ {s}, P s → P (fetchStage s)
  record : ∀ {s}, P s → P (recordStage s)

/-- What every sub-step keeps, every step keeps, wherever it ends. -/
theorem KeptBySubSteps.of_step {P : State → Prop} (kept : KeptBySubSteps P) {s t : State} (hs : P s)
    (h : step s = .next t) : P t := by
  have executed {u : State} (hexec : executeStage (memoryAccessStage (writeBackStage s)) = .next u) : P u :=
    kept.execute (kept.memoryAccess (kept.writeBack hs)) hexec
  cases stepForm_of_step h with
  | stopped => exact hs
  | operandFault _ hexec => exact executed hexec
  | formatFault _ hexec => exact kept.decode (executed hexec)
  | completed _ hexec => exact kept.record (kept.fetch (kept.decode (executed hexec)))

/-- Each of the six sub-steps, taken in two related states, leads to related states, and related states
are alike in what decides where a step ends. -/
structure RelatedBySubSteps (R : State → State → Prop) : Prop where
  busy : ∀ {s s'}, R s s' → s'.busy = s.busy
  latch : ∀ {s s'}, R s s' → s'.latch = s.latch
  writeBack : ∀ {s s'}, R s s' → R (writeBackStage s) (writeBackStage s')
  memoryAccess : ∀ {s s'}, R s s' → R (memoryAccessStage s) (memoryAccessStage s')
  execute : ∀ {s s' t}, R s s' → executeStage s = .next t → ∃ t', executeStage s' = .next t' ∧ R t t'
  decode : ∀ {s s'}, R s s' → R (decodeStage s) (decodeStage s')
  fetch : ∀ {s s'}, R s s' → R (fetchStage s) (fetchStage s')
  record : ∀ {s s'}, R s s' → R (recordStage s) (recordStage s')

theorem RelatedBySubSteps.of_frontEnd {R : State → State → Prop} (rel : RelatedBySubSteps R)
    {u u' : State} (hu : R u u') : R (frontEnd u) (frontEnd u') := by
  have hd := rel.decode hu
  have hl := rel.latch hd
  obtain ⟨hn, e⟩ | ⟨hn, e⟩ := frontEnd_cases u <;>
    obtain ⟨hn', e'⟩ | ⟨hn', e'⟩ := frontEnd_cases u' <;> rw [e, e']
  · exact hd
  · exact absurd (hl ▸ hn') hn
  · exact absurd (hl.trans hn) hn'
  · exact rel.record (rel.fetch hd)

/-- Steps of related states lead to related states. -/
theorem RelatedBySubSteps.of_step {R : State → State → Prop} (rel : RelatedBySubSteps R)
    {s s' t : State} (hs : R s s') (h : step s = .next t) : ∃ t', step s' = .next t' ∧ R t t' := by
  cases hbusy : s.busy
  · rw [step_of_not_busy hbusy] at h
    cases h
    exact ⟨s', step_of_not_busy ((rel.busy hs).trans hbusy), hs⟩
  · rw [step_of_busy hbusy] at h
    rw [step_of_busy ((rel.busy hs).trans hbusy)]
    obtain ⟨u, hexec, hu⟩ := cycle_cases s
    obtain ⟨u', hexec', hR⟩ := rel.execute (rel.memoryAccess (rel.writeBack hs)) hexec
    have hf : u'.faulted = u.faulted := by rw [State.faulted, State.faulted, rel.latch hR]
    obtain ⟨hfu, e⟩ | ⟨hfu, e⟩ := hu <;> rw [e] at h <;> cases h
    · exact ⟨u', by simp [cycle, hexec', hf, hfu], hR⟩
    · exact ⟨frontEnd u', by simp [cycle, hexec', hf, hfu], rel.of_frontEnd hR⟩

/-! The first three sub-steps together, the two faulting sub-steps, and the kinds they raise. -/

/-- What the first three sub-steps keep, whichever way the Execute sub-step goes. -/
theorem executed_frame {s u : State}
    (h : executeStage (memoryAccessStage (writeBackStage s)) = .next u) :
    u.pc = s.pc ∧ u.hist = s.hist ∧ u.imem = s.imem ∧ u.slots.s1 = s.slots.s1 := by
  obtain ⟨hpc, hhist, -, himem, -, h1, -⟩ := executeStage_frame h
  exact ⟨by simpa using hpc, by simpa using hhist, by simpa using himem, by simpa using h1⟩

/-- The Execute sub-step latches only the operand fault of the occupant of slot 2, and leaves it there. -/
theorem executeStage_latched {s t : State} (h : executeStage s = .next t) (hs : s.latch = none)
    (ht : t.latch ≠ none) :
    ∃ d k, s.slots.s2 = .dec d ∧ resolve d = .error k ∧ t = s.raise k (.dec d) := by
  obtain ⟨-, e⟩ | ⟨d, k, hd, hk, e⟩ | ⟨d, i, u, -, -, hu, e⟩ := executeStage_cases s <;>
    rw [e] at h <;> cases h
  · exact absurd hs ht
  · exact ⟨d, k, hd, hk, rfl⟩
  · obtain ⟨u', hu', -, -, -, -, hl, -⟩ := exec_frame i s
    rw [hu] at hu'
    cases hu'
    exact absurd (hl.trans hs) ht

/-- The Decode sub-step latches only the fault of the occupant of slot 1, and leaves it there. -/
theorem decodeStage_latched {s : State} (hs : s.latch = none) (ht : (decodeStage s).latch ≠ none) :
    ∃ i k, s.slots.s1 = .raw i ∧ decodeRaw i = .error k ∧ decodeStage s = s.raise k (.raw i) := by
  obtain ⟨-, e⟩ | h | ⟨i, d, -, -, e⟩ := decodeStage_cases s
  · rw [e] at ht
    exact absurd hs ht
  · exact h
  · rw [e] at ht
    exact absurd hs ht

theorem executeStage_of_not_dec {s : State} (h : ∀ d, s.slots.s2 ≠ .dec d) :
    executeStage s = .next s := by
  obtain ⟨-, e⟩ | ⟨d, -, hd, -⟩ | ⟨d, -, -, hd, -⟩ := executeStage_cases s
  · exact e
  · exact absurd hd (h d)
  · exact absurd hd (h d)

/-- The Decoder raises FormatError and nothing else (`60_exceptions.md` R201). -/
theorem formatError_of_decodeRaw_error {i : RawInstr} {k : FaultKind} (h : decodeRaw i = .error k) :
    k = .formatError := by
  cases i with
  | word w => cases h
  | record t =>
    simp only [decodeRaw, decodeRecord] at h
    split at h <;> cases h
    rfl

theorem aluOperands_error {l : List Text} {k : FaultKind} (h : aluOperands l = .error k) :
    k = .operandArityError ∨ k = .operandFormError := by
  unfold aluOperands at h
  split at h
  · split at h <;> cases h
    exact .inr rfl
  · cases h
    exact .inl rfl

theorem memOperands_error {l : List Text} {k : FaultKind} (h : memOperands l = .error k) :
    k = .operandArityError ∨ k = .operandFormError := by
  unfold memOperands at h
  split at h
  · split at h <;> cases h
    exact .inr rfl
  · cases h
    exact .inl rfl

theorem error_of_map_error {ε α β : Type} {f : α → β} {x : Except ε α} {e : ε}
    (h : x.map f = .error e) : x = .error e := by
  cases x <;> cases h
  rfl

/-- The Executor raises the two operand faults and nothing else (`60_exceptions.md` R202, R203). -/
theorem operandError_of_resolve_error {d : Decoded} {k : FaultKind} (h : resolve d = .error k) :
    k = .operandArityError ∨ k = .operandFormError := by
  cases d with
  | op i => cases h
  | pair opcode operands =>
    simp only [resolve, resolvePair] at h
    split_ifs at h
    · exact aluOperands_error (error_of_map_error h)
    · exact aluOperands_error (error_of_map_error h)
    · exact memOperands_error (error_of_map_error h)
    · exact memOperands_error (error_of_map_error h)

/-! What a step does to registers, data memory and key set. -/

theorem SameData.readReg {s t : State} (h : SameData s t) (r : RegIdx) : s.readReg r = t.readReg r :=
  State.readReg_of_regs_eq h.1 r

theorem SameData.memRead {s t : State} (h : SameData s t) (a : Word) : s.memRead a = t.memRead a := by
  rw [State.memRead, State.memRead, h.2.1]

theorem SameData.effectiveAddress {s t : State} (h : SameData s t) (base : RegIdx) (off : Word) :
    effectiveAddress s base off = effectiveAddress t base off := by
  rw [Machine.effectiveAddress, Machine.effectiveAddress, h.readReg]

theorem SameData.trans {s t u : State} (h : SameData s t) (h' : SameData t u) : SameData s u :=
  ⟨h.1.trans h'.1, h.2.1.trans h'.2.1, h.2.2.trans h'.2.2⟩

theorem SameData.writeReg {s t : State} (h : SameData s t) (r : RegIdx) (v : Word) :
    SameData (s.writeReg r v) (t.writeReg r v) := by
  obtain ⟨hregs, hmem, hkeys⟩ := h
  exact ⟨by simp [hregs], hmem, hkeys⟩

theorem SameData.memWrite {s t : State} (h : SameData s t) (a v : Word) :
    SameData (s.memWrite a v) (t.memWrite a v) := by
  obtain ⟨hregs, hmem, hkeys⟩ := h
  exact ⟨hregs, by simp [hmem], by simp [hkeys]⟩

/-- What an instruction does to the data depends on the data alone. -/
theorem exec_sameData {i : Instr} {s s' t : State} (hd : SameData s s') (h : exec i s = .next t) :
    ∃ t', exec i s' = .next t' ∧ SameData t t' := by
  cases i with
  | add rd rs rt =>
    cases h
    exact ⟨_, rfl, by rw [hd.readReg, hd.readReg]; exact hd.writeReg _ _⟩
  | sub rd rs rt =>
    cases h
    exact ⟨_, rfl, by rw [hd.readReg, hd.readReg]; exact hd.writeReg _ _⟩
  | lw rt off base =>
    cases h
    exact ⟨_, rfl, by rw [hd.memRead, hd.effectiveAddress]; exact hd.writeReg _ _⟩
  | sw rt off base =>
    cases h
    exact ⟨_, rfl, by rw [hd.readReg, hd.effectiveAddress]; exact hd.memWrite _ _⟩
  | unrecognized =>
    cases h
    exact ⟨_, rfl, hd⟩

/-- The first three sub-steps keep the data, or do to it what the instruction in slot 2 does. -/
theorem executed_data {s u : State}
    (h : executeStage (memoryAccessStage (writeBackStage s)) = .next u) :
    SameData u s ∨ ∃ d i v, s.slots.s2 = .dec d ∧ resolve d = .ok i ∧ exec i s = .next v ∧
      SameData u v := by
  have moved : SameData (memoryAccessStage (writeBackStage s)) s := by simp [SameData]
  obtain ⟨-, e⟩ | ⟨d, k, -, -, e⟩ | ⟨d, i, v, hd, hi, hv, e⟩ :=
    executeStage_cases (memoryAccessStage (writeBackStage s)) <;> rw [e] at h <;> cases h
  · exact .inl moved
  · exact .inl moved
  · obtain ⟨v', hv', hsame⟩ := exec_sameData moved hv
    exact .inr ⟨d, i, v', by simpa using hd, hi, hv', hsame⟩

/-- A step keeps registers, data memory and key set, or does to them what the instruction in slot 2
does. -/
theorem step_data {s t : State} (h : step s = .next t) :
    SameData t s ∨ ∃ d i u, s.slots.s2 = .dec d ∧ resolve d = .ok i ∧ exec i s = .next u ∧
      SameData t u := by
  have later {u t : State} (hexec : executeStage (memoryAccessStage (writeBackStage s)) = .next u)
      (ht : SameData t u) : SameData t s ∨ ∃ d i v, s.slots.s2 = .dec d ∧ resolve d = .ok i ∧
        exec i s = .next v ∧ SameData t v :=
    (executed_data hexec).imp ht.trans fun ⟨d, i, v, hd, hi, hv, hsame⟩ =>
      ⟨d, i, v, hd, hi, hv, ht.trans hsame⟩
  cases stepForm_of_step h with
  | stopped => exact .inl ⟨rfl, rfl, rfl⟩
  | operandFault _ hexec => exact later hexec ⟨rfl, rfl, rfl⟩
  | formatFault _ hexec => exact later hexec (by simp [SameData])
  | completed _ hexec => exact later hexec (by simp [SameData])

/-- An instruction changes no register but its destination. -/
theorem exec_readReg_of_not_destination {i : Instr} {s t : State} {r : RegIdx}
    (h : exec i s = .next t) (hr : destination i ≠ some r) : t.readReg r = s.readReg r := by
  cases i <;> cases h
  case sw => rfl
  case unrecognized => rfl
  all_goals exact State.readReg_writeReg_of_ne _ _ fun e => hr (congrArg some e.symm)

/-- A step keeps data memory and key set, or does to them what the SW in slot 2 does. -/
theorem step_memory {s t : State} (h : step s = .next t) :
    (t.mem = s.mem ∧ t.keys = s.keys) ∨
    ∃ d rt off base, s.slots.s2 = .dec d ∧ resolve d = .ok (.sw rt off base) ∧
      t.mem = (s.memWrite (effectiveAddress s base off) (s.readReg rt)).mem ∧
      t.keys = s.keys.add (effectiveAddress s base off).toNat := by
  obtain ⟨-, hmem, hkeys⟩ | ⟨d, i, u, hd, hi, hu, -, hmem, hkeys⟩ := step_data h
  · exact .inl ⟨hmem, hkeys⟩
  · obtain ⟨r, v, e⟩ | ⟨rt, off, base, rfl, e⟩ | ⟨-, e⟩ := exec_cases i s <;> rw [e] at hu <;> cases hu
    · exact .inl ⟨hmem, hkeys⟩
    · exact .inr ⟨d, rt, off, base, hd, hi, hmem, hkeys⟩
    · exact .inl ⟨hmem, hkeys⟩

/-! The machine invariant, one sub-step at a time. -/

/-- The invariant depends on slots, data memory, key set, `pc`, program and history alone. -/
theorem State.Inv.of_slots_typed {s t : State} (h : s.Inv) (hslots : t.slots.typed)
    (hmem : t.mem = s.mem) (hkeys : t.keys = s.keys) (hpc : t.pc = s.pc) (himem : t.imem = s.imem)
    (hhist : t.hist = s.hist) : t.Inv where
  memory := by rw [State.memoryWf, hmem, hkeys]; exact h.memory
  pc := by rw [State.pcWf, State.programLength, hpc, himem]; exact h.pc
  slots := hslots
  history := by rw [hhist]; exact h.history

theorem writeBackStage_inv {s : State} (h : s.Inv) : (writeBackStage s).Inv := by
  obtain ⟨h0, h1, h2, h3, h4⟩ := h.slots
  refine h.of_slots_typed ?_ (by simp) (by simp) (by simp) (by simp) (by simp)
  rw [writeBackStage_of_typed h4]
  exact ⟨h0, h1, h2, h3, rfl⟩

theorem memoryAccessStage_inv {s : State} (h : s.Inv) : (memoryAccessStage s).Inv := by
  obtain ⟨h0, h1, h2, -, -⟩ := h.slots
  unfold memoryAccessStage
  split
  · exact h.of_slots_typed ⟨h0, h1, h2, rfl, rfl⟩ rfl rfl rfl rfl rfl
  · exact h

theorem State.Inv.raise {s : State} (h : s.Inv) (k : FaultKind) (o : Slot) : (s.raise k o).Inv :=
  h.of_slots_typed h.slots rfl rfl rfl rfl rfl

theorem exec_inv {i : Instr} {s t : State} (h : s.Inv) (he : exec i s = .next t) : t.Inv := by
  obtain ⟨t', he', hpc, hslots, hhist, -, -, himem⟩ := exec_frame i s
  rw [he] at he'
  cases he'
  exact {
    memory := exec_memoryWf he h.memory
    pc := by rw [State.pcWf, State.programLength, hpc, himem]; exact h.pc
    slots := by rw [hslots]; exact h.slots
    history := by rw [hhist]; exact h.history }

theorem executeStage_inv {s t : State} (h : s.Inv) (he : executeStage s = .next t) : t.Inv := by
  obtain ⟨-, e⟩ | ⟨d, k, -, -, e⟩ | ⟨d, i, u, -, -, hu, e⟩ := executeStage_cases s <;>
    rw [e] at he <;> cases he
  · exact h
  · exact h.raise k _
  · have hinv := exec_inv h hu
    obtain ⟨h0, h1, -, -, h4⟩ := hinv.slots
    exact hinv.of_slots_typed ⟨h0, h1, rfl, rfl, h4⟩ rfl rfl rfl rfl rfl

theorem decodeStage_inv {s : State} (h : s.Inv) : (decodeStage s).Inv := by
  obtain ⟨h0, -, -, h3, h4⟩ := h.slots
  obtain ⟨-, e⟩ | ⟨i, k, -, -, e⟩ | ⟨i, d, -, -, e⟩ := decodeStage_cases s <;> rw [e]
  · exact h
  · exact h.raise k _
  · exact h.of_slots_typed ⟨h0, rfl, rfl, h3, h4⟩ rfl rfl rfl rfl rfl

/-- A fetch stays inside the program: `pc` does not wrap, because N < 2^32 (`10_state.md` R25). -/
theorem fetchStage_inv {s : State} (h : s.Inv) : (fetchStage s).Inv := by
  obtain ⟨-, e⟩ | ⟨i, -, hlt, e⟩ := fetchStage_cases s <;> rw [e]
  · exact h
  · obtain ⟨h0, -, h2, h3, h4⟩ := h.slots
    obtain ⟨hfits, -⟩ := h.pc
    have hle : (s.pc + 1#32).toNat ≤ s.programLength := by
      rw [Config.programLimit] at hfits
      bv_omega
    exact { memory := h.memory, pc := ⟨hfits, hle⟩, slots := ⟨h0, rfl, h2, h3, h4⟩, history := h.history }

theorem recordStage_inv {s : State} (h : s.Inv) : (recordStage s).Inv where
  memory := h.memory
  pc := h.pc
  slots := h.slots
  history := List.forall_mem_append.2 ⟨h.history, List.forall_mem_singleton.2 h.slots⟩

theorem inv_keptBySubSteps : KeptBySubSteps State.Inv where
  writeBack := writeBackStage_inv
  memoryAccess := memoryAccessStage_inv
  execute := executeStage_inv
  decode := decodeStage_inv
  fetch := fetchStage_inv
  record := recordStage_inv

/-- Settles O39: each sub-step keeps the invariant. -/
theorem stepKeepsInvariant : Obligations.StepKeepsInvariant :=
  fun _ _ hs h => inv_keptBySubSteps.of_step hs h

/-! The word level: no sub-step raises (`60_exceptions.md` R209). -/

/-- The machine is at the word level and no fault is latched. -/
def State.wordLevelUnlatched (s : State) : Prop := s.wordLevel ∧ s.latch = none

/-- It depends on program, slots 1 and 2 and the latch alone. -/
theorem State.wordLevelUnlatched.congr {s t : State} (h : s.wordLevelUnlatched)
    (himem : t.imem = s.imem) (h1 : t.slots.s1 = s.slots.s1) (h2 : t.slots.s2 = s.slots.s2)
    (hlatch : t.latch = s.latch) : t.wordLevelUnlatched := by
  rw [State.wordLevelUnlatched, State.wordLevel, himem, h1, h2, hlatch]
  exact h

theorem executeStage_wordLevelUnlatched {s t : State} (h : s.wordLevelUnlatched)
    (he : executeStage s = .next t) : t.wordLevelUnlatched := by
  obtain ⟨⟨hprog, h1, h2⟩, hl⟩ := h
  obtain ⟨-, e⟩ | ⟨d, k, hd, hk, e⟩ | ⟨d, i, u, -, -, hu, e⟩ := executeStage_cases s <;>
    rw [e] at he <;> cases he
  · exact ⟨⟨hprog, h1, h2⟩, hl⟩
  · cases d with
    | op i => cases hk
    | pair opcode operands => rw [hd] at h2; cases h2
  · obtain ⟨u', hu', -, hslots, -, -, hlatch, himem⟩ := exec_frame i s
    rw [hu] at hu'
    cases hu'
    exact ⟨⟨by simpa [himem] using hprog, by simpa [hslots] using h1, rfl⟩, hlatch.trans hl⟩

theorem RawInstr.eq_word_of_isWord {i : RawInstr} (h : RawInstr.isWord i = true) : ∃ w, i = .word w := by
  cases i with
  | word w => exact ⟨w, rfl⟩
  | record t => cases h

theorem decodeStage_wordLevelUnlatched {s : State} (h : s.wordLevelUnlatched) :
    (decodeStage s).wordLevelUnlatched := by
  obtain ⟨⟨hprog, h1, h2⟩, hl⟩ := h
  obtain ⟨-, e⟩ | ⟨i, k, hi, hk, e⟩ | ⟨i, d, hi, hd, e⟩ := decodeStage_cases s <;> rw [e]
  · exact ⟨⟨hprog, h1, h2⟩, hl⟩
  · rw [hi] at h1
    obtain ⟨w, rfl⟩ := RawInstr.eq_word_of_isWord h1
    cases hk
  · rw [hi] at h1
    obtain ⟨w, rfl⟩ := RawInstr.eq_word_of_isWord h1
    cases hd
    exact ⟨⟨hprog, rfl, rfl⟩, hl⟩

theorem fetchStage_wordLevelUnlatched {s : State} (h : s.wordLevelUnlatched) :
    (fetchStage s).wordLevelUnlatched := by
  obtain ⟨-, e⟩ | ⟨i, hi, -, e⟩ := fetchStage_cases s <;> rw [e]
  · exact h
  · obtain ⟨⟨hprog, -, h2⟩, hl⟩ := h
    exact ⟨⟨hprog, hprog i (List.mem_of_getElem? hi), h2⟩, hl⟩

theorem wordLevelUnlatched_keptBySubSteps : KeptBySubSteps State.wordLevelUnlatched where
  writeBack h := h.congr (by simp) (by simp) (by simp) (by simp)
  memoryAccess h := h.congr (by simp) (by simp) (by simp) (by simp)
  execute := executeStage_wordLevelUnlatched
  decode := decodeStage_wordLevelUnlatched
  fetch := fetchStage_wordLevelUnlatched
  record h := h.congr rfl rfl rfl rfl

/-! The fault latch. -/

/-- A step that latches a fault latches that of the occupant of slot 2 or of slot 1, which stays there. -/
theorem latch_cause_of_step {s t : State} {f : FaultLatch} (hs : s.latch = none)
    (h : step s = .next t) (ht : t.latch = some f) :
    (∃ d, s.slots.s2 = .dec d ∧ resolve d = .error f.kind ∧ f.occupant = .dec d ∧ t.slots.s2 = .dec d) ∨
    (∃ r, s.slots.s1 = .raw r ∧ decodeRaw r = .error f.kind ∧ f.occupant = .raw r ∧
      t.slots.s1 = .raw r) := by
  cases stepForm_of_step h with
  | stopped => rw [hs] at ht; cases ht
  | operandFault _ hexec hlatch =>
    obtain ⟨d, k, hd, hk, rfl⟩ := executeStage_latched hexec (by simpa using hs) hlatch
    cases ht
    exact .inl ⟨d, by simpa using hd, hk, rfl, hd⟩
  | @formatFault u _ hexec hnone hlatch =>
    obtain ⟨r, k, hr, hk, e⟩ := decodeStage_latched hnone hlatch
    obtain ⟨-, -, -, h1⟩ := executed_frame hexec
    rw [e] at ht ⊢
    cases ht
    exact .inr ⟨r, h1 ▸ hr, hk, rfl, hr⟩
  | completed _ _ hnone =>
    simp [hnone] at ht

theorem State.faultCode_eq_zero_iff (s : State) : s.faultCode = 0#2 ↔ s.latch = none := by
  unfold State.faultCode
  cases s.latch with
  | none => simp
  | some f => cases hk : f.kind <;> simp [hk, FaultKind.code]

/-- Settles O38: a step raises in sub-step 3 or in sub-step 4 or not at all, and never at the word
level. -/
theorem latchRecordsItsCause : Obligations.LatchRecordsItsCause := by
  refine ⟨fun s => ⟨State.reset, rfl, rfl⟩, fun s hs => step_of_latched hs,
    fun s t hw hl h => wordLevelUnlatched_keptBySubSteps.of_step ⟨hw, hl⟩ h, fun s t f hs h ht => ?_,
    State.faultCode_eq_zero_iff, rfl, rfl, rfl⟩
  obtain ⟨d, hd, hk, ho, hd'⟩ | ⟨r, hr, hk, ho, hr'⟩ := latch_cause_of_step hs h ht
  · exact .inl ⟨d, hd, hk, ho, hd', operandError_of_resolve_error hk⟩
  · exact .inr ⟨r, hr, hk, ho, hr', formatError_of_decodeRaw_error hk⟩

/-! Program, history and `pc`. -/

theorem imem_keptBySubSteps (program : List RawInstr) : KeptBySubSteps fun s => s.imem = program where
  writeBack h := by simpa using h
  memoryAccess h := by simpa using h
  execute h he := by
    obtain ⟨-, -, -, himem, -⟩ := executeStage_frame he
    exact himem.trans h
  decode h := by simpa using h
  fetch h := by simpa using h
  record h := h

/-- Settles O41: no sub-step writes the program. -/
theorem programNeverChanges : Obligations.ProgramNeverChanges :=
  fun s _ h => (imem_keptBySubSteps s.imem).of_step rfl h

/-- Settles O42: the Record sub-step alone appends, and it runs only in a cycle that raises nothing. -/
theorem historyIsAppendOnly : Obligations.HistoryIsAppendOnly := by
  intro s t h
  cases stepForm_of_step h with
  | stopped hbusy => exact ⟨fun hb => absurd hb (by simp [hbusy]), fun _ => rfl⟩
  | operandFault _ hexec hlatch =>
    obtain ⟨-, hhist, -, -⟩ := executed_frame hexec
    exact ⟨fun _ hn => absurd hn hlatch, fun _ => hhist⟩
  | formatFault _ hexec _ hlatch =>
    obtain ⟨-, hhist, -, -⟩ := executed_frame hexec
    exact ⟨fun _ hn => absurd hn hlatch, fun _ => by simpa using hhist⟩
  | completed hbusy hexec hnone =>
    obtain ⟨-, hhist, -, -⟩ := executed_frame hexec
    exact ⟨fun _ _ => by simp [hhist], fun hstop => by simp [hbusy, hnone] at hstop⟩

/-- A fetch inside the program advances `pc` by 1 and brings the instruction `pc` named. -/
theorem fetchStage_of_lt {s : State} (h : s.pc.toNat < s.programLength) :
    (fetchStage s).pc = s.pc + 1#32 ∧ (fetchStage s).slots.s1 = rawAt s.imem s.pc.toNat := by
  obtain ⟨hge, -⟩ | ⟨i, hi, -, e⟩ := fetchStage_cases s
  · exact absurd hge (Nat.not_le_of_lt h)
  · rw [e, rawAt, hi]
    exact ⟨rfl, rfl⟩

theorem fetchStage_of_le {s : State} (h : s.programLength ≤ s.pc.toNat) : fetchStage s = s := by
  obtain ⟨-, e⟩ | ⟨-, -, hlt, -⟩ := fetchStage_cases s
  · exact e
  · exact absurd hlt (Nat.not_lt_of_le h)

/-- Settles O44: the Fetch sub-step alone writes `pc`, and it runs only in a cycle that raises nothing. -/
theorem pcAdvancesOnlyByFetch : Obligations.PcAdvancesOnlyByFetch := by
  intro s t h
  cases stepForm_of_step h with
  | stopped hbusy => exact ⟨fun hb => absurd hb (by simp [hbusy]), fun _ => rfl⟩
  | operandFault _ hexec hlatch =>
    obtain ⟨hpc, -, -, -⟩ := executed_frame hexec
    exact ⟨fun _ hn => absurd hn hlatch, fun _ => hpc⟩
  | formatFault _ hexec _ hlatch =>
    obtain ⟨hpc, -, -, -⟩ := executed_frame hexec
    exact ⟨fun _ hn => absurd hn hlatch, fun _ => by simpa using hpc⟩
  | @completed u hbusy hexec hnone =>
    obtain ⟨hpc, -, himem, -⟩ := executed_frame hexec
    have hN : (decodeStage u).programLength = s.programLength := by
      rw [State.programLength, State.programLength, decodeStage_imem, himem]
    rw [recordStage_pc, recordStage_slots]
    refine ⟨fun _ _ hlt => ?_, fun hstop => ?_⟩
    · obtain ⟨hpc', h1⟩ := fetchStage_of_lt (s := decodeStage u) (by simpa [hN, hpc] using hlt)
      rw [hpc', h1, decodeStage_pc, decodeStage_imem, hpc, himem]
      exact ⟨rfl, rfl⟩
    · have hge : s.programLength ≤ s.pc.toNat := by simpa [hbusy, hnone] using hstop
      rw [fetchStage_of_le (by simpa [hN, hpc] using hge), decodeStage_pc, hpc]

/-! History, retire log and key set. -/

/-- `s'` is `s` with any history, retire log and key set. -/
def SameButHidden (s s' : State) : Prop :=
  ∃ h w ks, s' = { s with hist := h, retired := w, keys := ks }

theorem exec_sameButHidden {i : Instr} {s s' t : State} (hs : SameButHidden s s')
    (h : exec i s = .next t) : ∃ t', exec i s' = .next t' ∧ SameButHidden t t' := by
  obtain ⟨hh, w, ks, rfl⟩ := hs
  cases i <;> cases h <;> exact ⟨_, rfl, _, _, _, rfl⟩

theorem executeStage_sameButHidden {s s' t : State} (hs : SameButHidden s s')
    (h : executeStage s = .next t) : ∃ t', executeStage s' = .next t' ∧ SameButHidden t t' := by
  have hslots : s'.slots = s.slots := by obtain ⟨_, _, _, rfl⟩ := hs; rfl
  obtain ⟨hne, e⟩ | ⟨d, k, hd, hk, e⟩ | ⟨d, i, u, hd, hi, hu, e⟩ := executeStage_cases s <;>
    rw [e] at h <;> cases h
  · exact ⟨s', executeStage_of_not_dec (by rwa [hslots]), hs⟩
  · obtain ⟨hh, w, ks, rfl⟩ := hs
    exact ⟨_, executeStage_of_error hd hk, _, _, _, rfl⟩
  · obtain ⟨u', hu', hh, w, ks, rfl⟩ := exec_sameButHidden hs hu
    exact ⟨_, executeStage_of_ok (by rwa [hslots]) hi hu', _, _, _, rfl⟩

theorem sameButHidden_relatedBySubSteps : RelatedBySubSteps SameButHidden where
  busy := by rintro s _ ⟨h, w, ks, rfl⟩; rfl
  latch := by rintro s _ ⟨h, w, ks, rfl⟩; rfl
  writeBack := by
    rintro s _ ⟨h, w, ks, rfl⟩
    simp only [writeBackStage, writebackNoop]
    split <;> exact ⟨_, _, _, rfl⟩
  memoryAccess := by
    rintro s _ ⟨h, w, ks, rfl⟩
    simp only [memoryAccessStage]
    split <;> exact ⟨_, _, _, rfl⟩
  execute := executeStage_sameButHidden
  decode := by
    rintro s _ ⟨h, w, ks, rfl⟩
    simp only [decodeStage]
    split
    · split <;> exact ⟨_, _, _, rfl⟩
    · exact ⟨_, _, _, rfl⟩
  fetch := by
    rintro s _ ⟨h, w, ks, rfl⟩
    simp only [fetchStage]
    split <;> exact ⟨_, _, _, rfl⟩
  record := by rintro s _ ⟨h, w, ks, rfl⟩; exact ⟨_, _, _, rfl⟩

/-- Settles O43: two runs that differ in history, retire log and key set alone stay so, sub-step by
sub-step. -/
theorem hiddenStateIsNeverRead : Obligations.HiddenStateIsNeverRead := by
  intro s t h w ks hstep
  obtain ⟨_, hstep', h', w', ks', rfl⟩ := sameButHidden_relatedBySubSteps.of_step ⟨h, w, ks, rfl⟩ hstep
  exact ⟨_, hstep', rfl⟩

/-! Memory and registers. -/

/-- Settles O45: a step does to data memory and key set what the SW in slot 2 does, or nothing. -/
theorem onlyStoresChangeMemory : Obligations.OnlyStoresChangeMemory := by
  intro s t hwf h
  obtain ⟨hmem, hkeys⟩ | ⟨d, rt, off, base, hd, hi, hmem, hkeys⟩ := step_memory h
  · refine ⟨fun a ha => absurd ?_ ha, fun k hk hn => absurd (hkeys ▸ hk) hn, fun k hk => hkeys ▸ hk⟩
    rw [State.memRead, State.memRead, hmem]
  · have hread (a : Word) : t.memRead a =
        (s.memWrite (effectiveAddress s base off) (s.readReg rt)).memRead a := by
      rw [State.memRead, State.memRead, hmem]
    refine ⟨fun a ha => ?_, fun k hk hn => ?_, fun k hk => ?_⟩
    · have haddr : a = effectiveAddress s base off := by
        by_contra hne
        exact ha ((hread a).trans (State.memRead_memWrite_of_ne s _ hne))
      refine ⟨d, rt, off, base, hd, hi, haddr, ?_⟩
      rw [hread, haddr, State.memRead_memWrite_self hwf.1]
    · rw [hkeys, KeySet.mem_add] at hk
      exact ⟨d, rt, off, base, hd, hi, hk.resolve_right hn⟩
    · rw [hkeys, KeySet.mem_add]
      exact .inr hk

/-- Settles O46: a step does to the registers what the instruction in slot 2 does, or nothing. -/
theorem onlyDestinationRegisterChanges : Obligations.OnlyDestinationRegisterChanges := by
  intro s t r h hr
  obtain hsame | ⟨d, i, u, hd, hi, hu, hsame⟩ := step_data h
  · exact absurd (hsame.readReg r) hr
  · refine ⟨d, i, hd, hi, ?_⟩
    by_contra hne
    exact hr ((hsame.readReg r).trans (exec_readReg_of_not_destination hu hne))

/-! Reset, and register 0. -/

theorem reset_atResetValues : State.reset.AtResetValues where
  regs r := by simp [State.readReg, State.reset]
  pc := rfl
  slots := ⟨rfl, rfl, rfl, rfl, rfl⟩
  hist := rfl
  retired := rfl
  latch := rfl
  mem _ := rfl
  keys := rfl

/-- Settles O1: the reset pin leads to `State.reset` from any state. -/
theorem resetLeavesTabulatedValues : Obligations.ResetLeavesTabulatedValues :=
  ⟨reset_atResetValues, fun _ => ⟨State.reset, rfl, reset_atResetValues⟩⟩

/-- Settles O2: at reset data memory, key set, history, slots and program are empty. -/
theorem resetMeetsInvariant : Obligations.ResetMeetsInvariant where
  memory := ⟨reset_mem_wf, reset_keys_wf, List.forall_mem_nil _⟩
  pc := ⟨by decide, by decide⟩
  slots := ⟨rfl, rfl, rfl, rfl, rfl⟩
  history := List.forall_mem_nil _

/-- Settles O5: the write of a destination is a register write, and a read of any register written, 0
included, gives the value back. -/
theorem noRegisterIsHardwired : Obligations.NoRegisterIsHardwired := fun r s =>
  ⟨fun rs rt => ⟨_, exec_add r rs rt s, s.readReg_writeReg_self r _⟩,
    fun rs rt => ⟨_, exec_sub r rs rt s, s.readReg_writeReg_self r _⟩,
    fun off base => ⟨_, exec_lw r off base s, s.readReg_writeReg_self r _⟩⟩

end Sys2Proof.Machine

/-! PROOFS. The statements of `20_memory.md`: data memory and program are two stores (R64), an address is
taken modulo 2^32 (R66), and a cell nothing has written reads as 0 (R58). -/

namespace Sys2Proof.Machine

/-! The state with other data in place of its own: every sub-step but Execute does the same to it. -/

/-- `s` with any registers, data memory and key set in place of its own. -/
def State.withData (regs : Vector Word 32) (mem : Memory) (keys : KeySet) (s : State) : State :=
  { s with regs := regs, mem := mem, keys := keys }

section
variable (regs : Vector Word 32) (mem : Memory) (keys : KeySet) (s : State)

theorem writeBackStage_withData :
    writeBackStage (s.withData regs mem keys) = (writeBackStage s).withData regs mem keys := by
  simp only [writeBackStage, writebackNoop, State.withData]
  split <;> rfl

theorem memoryAccessStage_withData :
    memoryAccessStage (s.withData regs mem keys) = (memoryAccessStage s).withData regs mem keys := by
  simp only [memoryAccessStage, State.withData]
  split <;> rfl

theorem decodeStage_withData :
    decodeStage (s.withData regs mem keys) = (decodeStage s).withData regs mem keys := by
  simp only [decodeStage, State.withData]
  split
  · split <;> rfl
  · rfl

theorem fetchStage_withData :
    fetchStage (s.withData regs mem keys) = (fetchStage s).withData regs mem keys := by
  simp only [fetchStage, State.withData]
  split <;> rfl

/-- An instruction writes data alone: with other data it completes too, and leaves other data. -/
theorem exec_withData {i : Instr} {s t : State} (h : exec i s = .next t) :
    ∃ regs' mem' keys', exec i (s.withData regs mem keys) = .next (t.withData regs' mem' keys') := by
  cases i with
  | add rd rs rt => cases h; exact ⟨_, mem, keys, rfl⟩
  | sub rd rs rt => cases h; exact ⟨_, mem, keys, rfl⟩
  | lw rt off base => cases h; exact ⟨_, mem, keys, rfl⟩
  | sw rt off base => cases h; exact ⟨regs, _, _, rfl⟩
  | unrecognized => cases h; exact ⟨regs, mem, keys, rfl⟩

/-- Whether an occupant resolves does not depend on the data, so the Execute sub-step goes the same
way. -/
theorem executeStage_withData {s t : State} (h : executeStage s = .next t) :
    ∃ regs' mem' keys',
      executeStage (s.withData regs mem keys) = .next (t.withData regs' mem' keys') := by
  obtain ⟨hne, e⟩ | ⟨d, k, hd, hk, e⟩ | ⟨d, i, u, hd, hi, hu, e⟩ := executeStage_cases s <;>
    rw [e] at h <;> cases h
  · exact ⟨regs, mem, keys, executeStage_of_not_dec hne⟩
  · exact ⟨regs, mem, keys, executeStage_of_error hd hk⟩
  · obtain ⟨regs', mem', keys', hu'⟩ := exec_withData regs mem keys hu
    exact ⟨regs', mem', keys', executeStage_of_ok (s := s.withData regs mem keys) hd hi hu'⟩

end

/-- `s'` is `s` with any registers, data memory and key set. -/
def SameButData (s s' : State) : Prop := ∃ regs mem keys, s' = s.withData regs mem keys

theorem sameButData_relatedBySubSteps : RelatedBySubSteps SameButData where
  busy := by rintro s _ ⟨regs, mem, keys, rfl⟩; rfl
  latch := by rintro s _ ⟨regs, mem, keys, rfl⟩; rfl
  writeBack := by rintro s _ ⟨regs, mem, keys, rfl⟩; exact ⟨_, _, _, writeBackStage_withData ..⟩
  memoryAccess := by rintro s _ ⟨regs, mem, keys, rfl⟩; exact ⟨_, _, _, memoryAccessStage_withData ..⟩
  execute := by
    rintro s _ t ⟨regs, mem, keys, rfl⟩ h
    obtain ⟨regs', mem', keys', h'⟩ := executeStage_withData regs mem keys h
    exact ⟨_, h', _, _, _, rfl⟩
  decode := by rintro s _ ⟨regs, mem, keys, rfl⟩; exact ⟨_, _, _, decodeStage_withData ..⟩
  fetch := by rintro s _ ⟨regs, mem, keys, rfl⟩; exact ⟨_, _, _, fetchStage_withData ..⟩
  record := by rintro s _ ⟨regs, mem, keys, rfl⟩; exact ⟨regs, mem, keys, rfl⟩

/-- Settles O55: two runs that differ in registers, data memory and key set alone stay so, sub-step by
sub-step, and no sub-step writes the program. -/
theorem fetchIgnoresData : Obligations.FetchIgnoresData := by
  intro s t regs mem keys hstep
  obtain ⟨_, hstep', regs', mem', keys', rfl⟩ :=
    sameButData_relatedBySubSteps.of_step ⟨regs, mem, keys, rfl⟩ hstep
  exact ⟨programNeverChanges s t hstep, _, hstep', rfl⟩

/-! Addresses, and cells nothing has written. -/

theorem effectiveAddress_of_readReg {s : State} {base : RegIdx} {b : Word} (h : s.readReg base = b)
    (off : Word) : effectiveAddress s base off = b + off := by
  rw [effectiveAddress, h]

/-- Settles O12: the address is a sum of 32-bit values, hence modulo 2^32. -/
theorem effectiveAddressWraps : Obligations.EffectiveAddressWraps :=
  ⟨fun s base off => BitVec.toNat_add (s.readReg base) off,
    fun _ _ h => (effectiveAddress_of_readReg h _).trans (by decide),
    fun _ _ h => (effectiveAddress_of_readReg h _).trans (by decide)⟩

/-- A cell outside the key set reads as 0, because every cell listed is materialised (`10_state.md`
R36). -/
theorem State.memRead_of_not_mem_keys {s : State} (h : s.memoryWf) {a : Word} (ha : a.toNat ∉ s.keys) :
    s.memRead a = 0#32 := by
  obtain ⟨-, -, hlisted⟩ := h
  exact Memory.read_of_not_mem s.mem a.toNat fun c hc hca => ha (hca ▸ hlisted c hc)

/-- Settles O16: a load is one register write, of the value the cell reads as. -/
theorem unwrittenCellReadsZero : Obligations.UnwrittenCellReadsZero :=
  ⟨fun rt off base s => ⟨_, exec_lw rt off base s, rfl, s.readReg_writeReg_self rt _⟩,
    fun rt off base s hwf hkeys => ⟨_, exec_lw rt off base s,
      (s.readReg_writeReg_self rt _).trans (State.memRead_of_not_mem_keys hwf hkeys), rfl, rfl⟩⟩

end Sys2Proof.Machine

/-! PROOFS. The statements of `30_encoding.md`: words decode to what they encode (R88 to R97), the opcode
table (R95), register and memory operands (R83, R85), and records against words (R100, R101). -/

namespace Sys2Proof.Machine

/-! What the Decoder makes of an assembled word (`40_decoder.md` R126). -/

section
variable (rs rt rd base : RegIdx) (imm : BitVec 16)

@[simp] theorem decodeWord_rFormat_add : decodeWord (rFormat rs rt rd 0b100000#6) = .add rd rs rt := by
  simp [decodeWord]

@[simp] theorem decodeWord_rFormat_sub : decodeWord (rFormat rs rt rd 0b100010#6) = .sub rd rs rt := by
  simp [decodeWord]

@[simp] theorem decodeWord_iFormat_lw :
    decodeWord (iFormat 0b100011#6 base rt imm) = .lw rt (signedOffset imm) base := by
  simp [decodeWord]

@[simp] theorem decodeWord_iFormat_sw :
    decodeWord (iFormat 0b101011#6 base rt imm) = .sw rt (signedOffset imm) base := by
  simp [decodeWord]

end

/-- Settles O19: the fields of an assembled word are the operands, and a fitting offset is the sign
extension of its field. -/
theorem decodeOfEncode : Obligations.DecodeOfEncode := by
  intro i hwf
  cases i with
  | add rd rs rt => exact decodeWord_rFormat_add rs rt rd
  | sub rd rs rt => exact decodeWord_rFormat_sub rs rt rd
  | lw rt off base => rw [encode, decodeWord_iFormat_lw, signedOffset_of_fits hwf]
  | sw rt off base => rw [encode, decodeWord_iFormat_sw, signedOffset_of_fits hwf]
  | unrecognized => decide

/-- A word is unrecognized, or the word that one of the four layouts makes of its fields (R91 to R96). -/
theorem decodeWord_cases (w : Word) :
    decodeWord w = .unrecognized ∨
    (∃ rs rt rd, w = rFormat rs rt rd 0b100000#6) ∨ (∃ rs rt rd, w = rFormat rs rt rd 0b100010#6) ∨
    (∃ base rt imm, w = iFormat 0b100011#6 base rt imm) ∨
    (∃ base rt imm, w = iFormat 0b101011#6 base rt imm) := by
  by_cases hadd : fieldOpcode w = 0b000000#6 ∧ fieldShamt w = 0b00000#5 ∧ fieldFunct w = 0b100000#6
  · obtain ⟨hop, hsh, hfn⟩ := hadd
    exact .inr (.inl ⟨_, _, _, hfn ▸ eq_rFormat_of_fields hop hsh⟩)
  by_cases hsub : fieldOpcode w = 0b000000#6 ∧ fieldShamt w = 0b00000#5 ∧ fieldFunct w = 0b100010#6
  · obtain ⟨hop, hsh, hfn⟩ := hsub
    exact .inr (.inr (.inl ⟨_, _, _, hfn ▸ eq_rFormat_of_fields hop hsh⟩))
  by_cases hlw : fieldOpcode w = 0b100011#6
  · exact .inr (.inr (.inr (.inl ⟨_, _, _, hlw ▸ eq_iFormat_of_fields w⟩)))
  by_cases hsw : fieldOpcode w = 0b101011#6
  · exact .inr (.inr (.inr (.inr ⟨_, _, _, hsw ▸ eq_iFormat_of_fields w⟩)))
  · exact .inl (by rw [decodeWord, if_neg hadd, if_neg hsub, if_neg hlw, if_neg hsw])

/-- Settles O20: a word that is one of the four instructions is the word of its fields. -/
theorem encodeOfDecode : Obligations.EncodeOfDecode := by
  intro w
  obtain h | ⟨rs, rt, rd, rfl⟩ | ⟨rs, rt, rd, rfl⟩ | ⟨base, rt, imm, rfl⟩ | ⟨base, rt, imm, rfl⟩ :=
    decodeWord_cases w
  · simp [h, Instr.wellFormed]
  · simp [Instr.wellFormed, encode]
  · simp [Instr.wellFormed, encode]
  · simp [Instr.wellFormed, encode]
  · simp [Instr.wellFormed, encode]

/-! The opcode table (R95): the mask of a row keeps the fields that are fixed. -/

/-- A mask that is all ones over a field leaves the field as it is. -/
theorem extractLsb'_and_of_ones {start len : Nat} {mask : Word}
    (h : mask.extractLsb' start len = BitVec.allOnes len) (w : Word) :
    (w &&& mask).extractLsb' start len = w.extractLsb' start len := by
  rw [BitVec.extractLsb'_and, h, BitVec.and_allOnes]

theorem rFormat_and_rMask (rs rt rd : RegIdx) (f : BitVec 6) :
    rFormat rs rt rd f &&& 0xFC0007FF#32 = rFormat 0 0 0 f := by
  refine BitVec.eq_of_getLsbD_eq fun i hi => ?_
  simp only [rFormat, BitVec.getLsbD_and, BitVec.getLsbD_append]
  interval_cases i <;> simp

theorem iFormat_and_iMask (op : BitVec 6) (base rt : RegIdx) (imm : BitVec 16) :
    iFormat op base rt imm &&& 0xFC000000#32 = iFormat op 0 0 0 := by
  refine BitVec.eq_of_getLsbD_eq fun i hi => ?_
  simp only [iFormat, BitVec.getLsbD_and, BitVec.getLsbD_append]
  interval_cases i <;> simp

theorem and_rMask_eq_iff (w : Word) (f : BitVec 6) : w &&& 0xFC0007FF#32 = rFormat 0 0 0 f ↔
    fieldOpcode w = 0b000000#6 ∧ fieldShamt w = 0b00000#5 ∧ fieldFunct w = f := by
  constructor
  · intro h
    have hop : fieldOpcode (w &&& 0xFC0007FF#32) = fieldOpcode w :=
      extractLsb'_and_of_ones (by decide) w
    have hsh : fieldShamt (w &&& 0xFC0007FF#32) = fieldShamt w :=
      extractLsb'_and_of_ones (by decide) w
    have hfn : fieldFunct (w &&& 0xFC0007FF#32) = fieldFunct w :=
      extractLsb'_and_of_ones (by decide) w
    rw [← hop, ← hsh, ← hfn, h]
    simp
  · rintro ⟨hop, hsh, rfl⟩
    exact (congrArg (· &&& 0xFC0007FF#32) (eq_rFormat_of_fields hop hsh)).trans
      (rFormat_and_rMask _ _ _ _)

theorem and_iMask_eq_iff (w : Word) (op : BitVec 6) :
    w &&& 0xFC000000#32 = iFormat op 0 0 0 ↔ fieldOpcode w = op := by
  have kept : w &&& 0xFC000000#32 = iFormat (fieldOpcode w) 0 0 0 :=
    (congrArg (· &&& 0xFC000000#32) (eq_iFormat_of_fields w)).trans (iFormat_and_iMask _ _ _ _)
  rw [kept]
  exact ⟨fun h => by simpa using congrArg fieldOpcode h, fun h => by rw [h]⟩

/-- The conditions under which the Decoder answers each of the four instructions exclude each other. -/
theorem mnemonic_decodeWord_iff (w : Word) :
    ((decodeWord w).mnemonic = "ADD" ↔
      fieldOpcode w = 0b000000#6 ∧ fieldShamt w = 0b00000#5 ∧ fieldFunct w = 0b100000#6) ∧
    ((decodeWord w).mnemonic = "SUB" ↔
      fieldOpcode w = 0b000000#6 ∧ fieldShamt w = 0b00000#5 ∧ fieldFunct w = 0b100010#6) ∧
    ((decodeWord w).mnemonic = "LW" ↔ fieldOpcode w = 0b100011#6) ∧
    ((decodeWord w).mnemonic = "SW" ↔ fieldOpcode w = 0b101011#6) := by
  rw [decodeWord]
  split_ifs <;> simp_all [Instr.mnemonic]

/-- The row selected is the row of the decoded instruction. -/
theorem selects_iff_mnemonic {row : OpcodeRow} (hrow : row ∈ opcodeRows) (w : Word) :
    row.selects w = true ↔ (decodeWord w).mnemonic = row.mnemonic := by
  obtain ⟨hadd, hsub, hlw, hsw⟩ := mnemonic_decodeWord_iff w
  simp only [opcodeRows, List.mem_cons, List.not_mem_nil, or_false] at hrow
  obtain rfl | rfl | rfl | rfl := hrow
  · exact beq_iff_eq.trans ((and_rMask_eq_iff w 0b100000#6).trans hadd.symm)
  · exact beq_iff_eq.trans ((and_rMask_eq_iff w 0b100010#6).trans hsub.symm)
  · exact beq_iff_eq.trans ((and_iMask_eq_iff w 0b100011#6).trans hlw.symm)
  · exact beq_iff_eq.trans ((and_iMask_eq_iff w 0b101011#6).trans hsw.symm)

theorem opcodeRows_eq_of_mnemonic_eq :
    ∀ r₁ ∈ opcodeRows, ∀ r₂ ∈ opcodeRows, r₁.mnemonic = r₂.mnemonic → r₁ = r₂ := by decide

theorem eq_unrecognized_iff_mnemonic (i : Instr) :
    i = .unrecognized ↔ ∀ row ∈ opcodeRows, i.mnemonic ≠ row.mnemonic := by
  cases i <;> simp [opcodeRows, Instr.mnemonic]

/-- Settles O21: a word selects the row of the instruction it decodes to, and no two rows have one
mnemonic. -/
theorem opcodeRowsDisjoint : Obligations.OpcodeRowsDisjoint := by
  refine ⟨fun w r₁ h₁ r₂ h₂ s₁ s₂ => ?_, fun w row hrow => selects_iff_mnemonic hrow w, fun w => ?_⟩
  · have m₁ := (selects_iff_mnemonic h₁ w).1 s₁
    have m₂ := (selects_iff_mnemonic h₂ w).1 s₂
    exact opcodeRows_eq_of_mnemonic_eq r₁ h₁ r₂ h₂ (m₁.symm.trans m₂)
  · rw [eq_unrecognized_iff_mnemonic]
    refine forall₂_congr fun row hrow => ?_
    rw [← Bool.not_eq_true, selects_iff_mnemonic hrow]

/-! Decimal numbers (`30_encoding.md` R83, R85). -/

theorem digitValue_digitChar : ∀ d < 10, digitValue (digitChar d) = some d := by decide

theorem digitValue_eq_some_iff (c : Char) (d : Nat) :
    digitValue c = some d ↔ d < 10 ∧ c = digitChar d := by
  constructor
  · intro h
    unfold digitValue at h
    split at h
    · next hc =>
      obtain ⟨hlo, hhi⟩ := hc
      have hlo : 48 ≤ c.toNat := hlo
      have hhi : c.toNat ≤ 57 := hhi
      obtain rfl := Option.some.inj h
      refine ⟨by omega, ?_⟩
      rw [digitChar, Nat.add_sub_cancel' hlo, Char.ofNat_toNat]
    · cases h
  · rintro ⟨hd, rfl⟩
    exact digitValue_digitChar d hd

theorem decimalFrom_append_singleton (acc : Nat) (t : Text) (c : Char) :
    decimalFrom acc (t ++ [c]) =
      (decimalFrom acc t).bind fun m => (digitValue c).map (m * 10 + ·) := by
  induction t generalizing acc with
  | nil => cases h : digitValue c <;> simp [decimalFrom, h]
  | cons x xs ih => cases h : digitValue x <;> simp [decimalFrom, h, ih]

theorem decimal_eq_decimalFrom {t : Text} (h : t ≠ []) : decimal t = decimalFrom 0 t := by
  cases t with
  | nil => exact absurd rfl h
  | cons c cs => rfl

theorem decimalText_ne_nil (fuel n : Nat) : decimalText (fuel + 1) n ≠ [] := by
  rw [decimalText]
  split <;> simp

/-- Reading the decimal text of a number gives the number. -/
theorem decimal_decimalText (fuel n : Nat) (h : n < 10 ^ (fuel + 1)) :
    decimal (decimalText (fuel + 1) n) = some n := by
  rw [decimal_eq_decimalFrom (decimalText_ne_nil fuel n)]
  induction fuel generalizing n with
  | zero => simp [decimalText, decimalFrom, digitValue_digitChar n h, show n < 10 from h]
  | succ fuel ih =>
    rw [decimalText]
    split
    · next hn => simp [decimalFrom, digitValue_digitChar n hn]
    · have hq : n / 10 < 10 ^ (fuel + 1) := Nat.div_lt_of_lt_mul (by rwa [← Nat.pow_succ'])
      rw [decimalFrom_append_singleton, ih _ hq, Option.bind_some,
        digitValue_digitChar (n % 10) (Nat.mod_lt n (by decide)), Option.map_some, Nat.div_add_mod']

theorem le_of_decimalFrom {t : Text} {acc n : Nat} (h : decimalFrom acc t = some n) : acc ≤ n := by
  induction t generalizing acc with
  | nil => exact (Option.some.inj h).le
  | cons c cs ih =>
    rw [decimalFrom] at h
    cases hd : digitValue c with
    | none => rw [hd] at h; cases h
    | some d => rw [hd] at h; have := ih h; omega

/-- A decimal number that does not start with the digit 0 is positive. -/
theorem pos_of_decimal {c : Char} {cs : Text} {n : Nat} (h : decimal (c :: cs) = some n)
    (hc : c ≠ '0') : 0 < n := by
  rw [decimal, decimalFrom] at h
  cases hd : digitValue c with
  | none => rw [hd] at h; cases h
  | some d =>
    rw [hd] at h
    have hle := le_of_decimalFrom h
    obtain ⟨-, rfl⟩ := (digitValue_eq_some_iff c d).1 hd
    have : d ≠ 0 := by rintro rfl; exact hc (by decide)
    omega

/-- The last digit of a decimal number, and the value of those before it. -/
theorem decimal_append_singleton_eq_some {s : Text} {c : Char} {n : Nat}
    (h : decimal (s ++ [c]) = some n) :
    ∃ m d, decimalFrom 0 s = some m ∧ d < 10 ∧ c = digitChar d ∧ n = m * 10 + d := by
  rw [decimal_eq_decimalFrom (by simp), decimalFrom_append_singleton] at h
  obtain ⟨m, hm, hc⟩ := Option.bind_eq_some_iff.1 h
  obtain ⟨d, hd, rfl⟩ := Option.map_eq_some_iff.1 hc
  obtain ⟨hlt, rfl⟩ := (digitValue_eq_some_iff c d).1 hd
  exact ⟨m, d, hm, hlt, rfl, rfl⟩

/-- A number whose first digit is not 0 is written in one way only. -/
theorem eq_decimalText_of_decimal {fuel n : Nat} {t : Text} (h : decimal t = some n)
    (hhead : t.head? ≠ some '0') (hn : n < 10 ^ (fuel + 1)) : t = decimalText (fuel + 1) n := by
  induction t using List.reverseRecOn generalizing fuel n with
  | nil => cases h
  | append_singleton s c ih =>
    obtain ⟨m, d, hm, hd, rfl, rfl⟩ := decimal_append_singleton_eq_some h
    cases s with
    | nil => obtain rfl := Option.some.inj hm; simp [decimalText, hd]
    | cons x xs =>
      have hpos : 0 < m := pos_of_decimal hm (by simpa using hhead)
      cases fuel with
      | zero => omega
      | succ fuel =>
        have hs := ih (fuel := fuel) hm (by simpa using hhead) (by rw [Nat.pow_succ'] at hn; omega)
        have hdiv : (m * 10 + d) / 10 = m := by omega
        have hmod : (m * 10 + d) % 10 = d := by omega
        rw [decimalText, if_neg (by omega), hdiv, hmod, ← hs]

/-- A number without leading zeros is the digit 0, or its first digit is not 0. -/
theorem decimalNoLeadingZero_eq_some {t : Text} {n : Nat} (h : decimalNoLeadingZero t = some n) :
    decimal t = some n ∧ (t = ['0'] ∨ t.head? ≠ some '0') := by
  unfold decimalNoLeadingZero at h
  split at h
  · cases h
  · next hno =>
    refine ⟨h, ?_⟩
    match t, hno with
    | [], _ => cases h
    | [c], _ => simpa using em (c = '0')
    | c :: x :: xs, hno => exact .inr fun hc => hno x xs (by simpa using hc)

theorem eq_decimalText_of_decimalNoLeadingZero {fuel n : Nat} {t : Text}
    (h : decimalNoLeadingZero t = some n) (hn : n < 10 ^ (fuel + 1)) : t = decimalText (fuel + 1) n := by
  obtain ⟨hdec, rfl | hhead⟩ := decimalNoLeadingZero_eq_some h
  · obtain rfl : 0 = n := Option.some.inj hdec
    rw [decimalText]; rfl
  · exact eq_decimalText_of_decimal hdec hhead hn

/-! Registers (R83). -/

@[simp] theorem parseReg_regText : ∀ r, parseReg (regText r) = some r := by decide

/-- A register operand is `$r` and the number of the register, written without leading zeros. -/
theorem parseReg_eq_some_iff (t : Text) (r : RegIdx) : parseReg t = some r ↔ t = regText r := by
  refine ⟨fun h => ?_, by rintro rfl; exact parseReg_regText r⟩
  unfold parseReg at h
  split at h
  · next ds =>
    split at h
    · next n hds =>
      split at h
      · next hn =>
        obtain rfl := Option.some.inj h
        have hlt : n < 10 ^ (1 + 1) := by omega
        rw [regText, BitVec.toNat_ofNat, Nat.mod_eq_of_lt (by omega),
          eq_decimalText_of_decimalNoLeadingZero hds hlt]
      · cases h
    · cases h
  · cases h

/-- A register operand holds the dollar sign, the letter and digits only. -/
theorem not_mem_regText {c : Char} (hdollar : c ≠ '$') (hletter : c ≠ 'r') (hdigit : digitValue c = none)
    (r : RegIdx) : c ∉ regText r := by
  have hnumber : c ∉ decimalText 2 r.toNat :=
    not_mem_of_decimal (decimal_decimalText 1 r.toNat (by have := r.isLt; omega)) hdigit
  simp [regText, hdollar, hletter, hnumber]

theorem parseReg_eq_none {t : Text} (h : ∀ r, t ≠ regText r) : parseReg t = none :=
  Option.eq_none_iff_forall_ne_some.2 fun r hr => h r ((parseReg_eq_some_iff t r).1 hr)

/-! Offsets and memory operands (R85). -/

@[simp] theorem offsetValue_offsetText (off : Word) : offsetValue (offsetText off) = some off.toInt := by
  have hlt : off.toInt.natAbs < 10 ^ (9 + 1) := by
    have := off.toInt_lt; have := off.le_toInt; omega
  have hdigits := decimal_decimalText 9 off.toInt.natAbs hlt
  unfold offsetText
  split
  · rw [offsetValue_of_minus hdigits]; congr 1; omega
  · rw [offsetValue_of_decimal hdigits]; congr 1; omega

/-- An offset holds digits and a minus sign only. -/
theorem not_mem_offset_of_not_digit {o : Text} {v : Int} (h : offsetValue o = some v) {c : Char}
    (hc : digitValue c = none) (hminus : c ≠ '-') : c ∉ o := by
  obtain ⟨digits, n, hn, ⟨rfl, -⟩ | ⟨rfl, -⟩⟩ := (offsetValue_eq_some_iff o v).1 h
  · exact not_mem_of_decimal hn hc
  · simp [hminus, not_mem_of_decimal hn hc]

theorem parseOffset_eq_some_iff (o : Text) (off : Word) :
    parseOffset o = some off ↔ ∃ v, offsetValue o = some v ∧ BitVec.ofInt 32 v = off :=
  Option.map_eq_some_iff

theorem parseMemOperand_eq_some_iff (t : Text) (off : Word) (base : RegIdx) :
    parseMemOperand t = some (off, base) ↔
      ∃ o, parseOffset o = some off ∧ t = o ++ ['('] ++ regText base ++ [')'] := by
  unfold parseMemOperand
  constructor
  · intro h
    split at h
    · cases h
    · next o r hsplit =>
      split at h
      · next off' base' ho hr =>
        obtain ⟨rfl, rfl⟩ := Prod.mk.inj (Option.some.inj h)
        obtain ⟨rfl, -⟩ := (splitMemOperand_eq_some_iff t o r).1 hsplit
        exact ⟨o, ho, by rw [(parseReg_eq_some_iff r _).1 hr]⟩
      · cases h
  · rintro ⟨o, ho, rfl⟩
    obtain ⟨v, hv, -⟩ := (parseOffset_eq_some_iff o off).1 ho
    rw [(splitMemOperand_eq_some_iff _ o (regText base)).2 ⟨rfl, not_mem_of_offsetValue hv⟩]
    simp [ho]

theorem parseMemOperand_of_offsetValue {o : Text} {v : Int} (h : offsetValue o = some v) (base : RegIdx) :
    parseMemOperand (o ++ ['('] ++ regText base ++ [')']) = some (BitVec.ofInt 32 v, base) :=
  (parseMemOperand_eq_some_iff _ _ base).2 ⟨o, parseOffset_of_offsetValue h, rfl⟩

/-- Settles O27: an offset holds no parenthesis, so the operand splits right after it. -/
theorem memoryOperandShape : Obligations.MemoryOperandShape := parseMemOperand_eq_some_iff

/-- What stands between a parenthesis and the closing one can only be the base register, even where more
than one parenthesis stands before it. -/
theorem eq_regText_of_parseMemOperand {c t : Text} {off : Word} {base : RegIdx}
    (h : parseMemOperand (c ++ ['('] ++ t ++ [')']) = some (off, base)) : t = regText base := by
  obtain ⟨o, ho, heq⟩ := (parseMemOperand_eq_some_iff _ off base).1 h
  obtain ⟨v, hv, -⟩ := (parseOffset_eq_some_iff o off).1 ho
  have heq : o ++ '(' :: regText base = c ++ '(' :: t := by
    simpa using (List.append_cancel_right heq).symm
  exact ((List.append_cons_inj_of_notMem (not_mem_of_offsetValue hv)
    (not_mem_regText (by decide) (by decide) (by decide) base)).1 heq).2.2.symm

/-! The operand lists of the four instructions, and the resolution of a pair (R84, R85;
`41_executor_dispatch.md` R131). -/

section
variable (operands : List Text)

theorem resolve_add : resolve (.pair "ADD".toList operands) =
    (aluOperands operands).map fun (rd, rs, rt) => .add rd rs rt := rfl

theorem resolve_sub : resolve (.pair "SUB".toList operands) =
    (aluOperands operands).map fun (rd, rs, rt) => .sub rd rs rt := rfl

theorem resolve_lw : resolve (.pair "LW".toList operands) =
    (memOperands operands).map fun (rt, off, base) => .lw rt off base := rfl

theorem resolve_sw : resolve (.pair "SW".toList operands) =
    (memOperands operands).map fun (rt, off, base) => .sw rt off base := rfl

theorem resolve_of_not_mem {opcode : Text}
    (h : opcode ∉ ["ADD".toList, "SUB".toList, "LW".toList, "SW".toList]) :
    resolve (.pair opcode operands) = .ok .unrecognized := by
  simp only [List.mem_cons, List.not_mem_nil, or_false, not_or] at h
  obtain ⟨hadd, hsub, hlw, hsw⟩ := h
  rw [resolve, resolvePair, if_neg hadd, if_neg hsub, if_neg hlw, if_neg hsw]

end

theorem aluOperands_regText (rd rs rt : RegIdx) :
    aluOperands [regText rd, regText rs, regText rt] = .ok (rd, rs, rt) := by
  simp [aluOperands]

theorem aluOperands_of_parseReg_eq_none {a b c : Text}
    (h : parseReg a = none ∨ parseReg b = none ∨ parseReg c = none) :
    aluOperands [a, b, c] = .error .operandFormError := by
  rw [aluOperands]
  split
  · next ha hb hc => simp [ha, hb, hc] at h
  · rfl

theorem memOperands_of_parse {b : Text} {off : Word} {base : RegIdx} (rt : RegIdx)
    (h : parseMemOperand b = some (off, base)) : memOperands [regText rt, b] = .ok (rt, off, base) := by
  simp [memOperands, h]

theorem resolve_lw_of_offsetValue {o : Text} {v : Int} (h : offsetValue o = some v) (rt base : RegIdx) :
    resolve (.pair "LW".toList [regText rt, o ++ ['('] ++ regText base ++ [')']]) =
      .ok (.lw rt (BitVec.ofInt 32 v) base) := by
  rw [resolve_lw, memOperands_of_parse rt (parseMemOperand_of_offsetValue h base)]; rfl

theorem resolve_sw_of_offsetValue {o : Text} {v : Int} (h : offsetValue o = some v) (rt base : RegIdx) :
    resolve (.pair "SW".toList [regText rt, o ++ ['('] ++ regText base ++ [')']]) =
      .ok (.sw rt (BitVec.ofInt 32 v) base) := by
  rw [resolve_sw, memOperands_of_parse rt (parseMemOperand_of_offsetValue h base)]; rfl

theorem memOperands_of_parse_eq_none {a b : Text} (h : parseReg a = none ∨ parseMemOperand b = none) :
    memOperands [a, b] = .error .operandFormError := by
  rw [memOperands]
  split
  · next ha hb => simp [ha, hb] at h
  · rfl

theorem memOperands_eq_ok {operands : List Text} {rt base : RegIdx} {off : Word}
    (h : memOperands operands = .ok (rt, off, base)) :
    ∃ a b, operands = [a, b] ∧ parseMemOperand b = some (off, base) := by
  unfold memOperands at h
  split at h
  · next a b =>
    split at h
    · next hb => cases h; exact ⟨a, b, rfl, hb⟩
    · cases h
  · cases h

theorem resolve_aluOperands_error {opcode : Text} (hop : opcode ∈ ["ADD".toList, "SUB".toList])
    {operands : List Text} {k : FaultKind} (h : aluOperands operands = .error k) :
    resolve (.pair opcode operands) = .error k := by
  simp only [List.mem_cons, List.not_mem_nil, or_false] at hop
  obtain rfl | rfl := hop
  · rw [resolve_add, h]; rfl
  · rw [resolve_sub, h]; rfl

theorem resolve_memOperands_error {opcode : Text} (hop : opcode ∈ ["LW".toList, "SW".toList])
    {operands : List Text} {k : FaultKind} (h : memOperands operands = .error k) :
    resolve (.pair opcode operands) = .error k := by
  simp only [List.mem_cons, List.not_mem_nil, or_false] at hop
  obtain rfl | rfl := hop
  · rw [resolve_lw, h]; rfl
  · rw [resolve_sw, h]; rfl

/-- Settles O26: decimal numbers without leading zeros are written in one way, and whatever stands in a
register position has to be read as a register. -/
theorem registerTextsAreExact : Obligations.RegisterTextsAreExact := by
  refine ⟨parseReg_eq_some_iff, fun t ht b c => ?_⟩
  have hreg : parseReg t = none := parseReg_eq_none ht
  have hbase : parseMemOperand (c ++ ['('] ++ t ++ [')']) = none :=
    Option.eq_none_iff_forall_ne_some.2 fun p hp => ht p.2 (eq_regText_of_parseMemOperand hp)
  refine ⟨fun opcode hop => ⟨?_, ?_, ?_⟩, fun opcode hop => ⟨?_, ?_⟩⟩
  · exact resolve_aluOperands_error hop (aluOperands_of_parseReg_eq_none (.inl hreg))
  · exact resolve_aluOperands_error hop (aluOperands_of_parseReg_eq_none (.inr (.inl hreg)))
  · exact resolve_aluOperands_error hop (aluOperands_of_parseReg_eq_none (.inr (.inr hreg)))
  · exact resolve_memOperands_error hop (memOperands_of_parse_eq_none (.inl hreg))
  · exact resolve_memOperands_error hop (memOperands_of_parse_eq_none (.inr hbase))

/-! Splitting a record (`40_decoder.md` R121). -/

theorem decodeRecord_append (opcode rest : Text) (h : ' ' ∉ opcode) :
    decodeRecord (opcode ++ ' ' :: rest) = .ok (.pair opcode ((splitCommas rest).map trim)) := by
  rw [decodeRecord, splitFirst_append ' ' opcode rest h]

theorem splitCommas_of_not_mem {t : Text} (h : ',' ∉ t) : splitCommas t = [t] := by
  induction t with
  | nil => rfl
  | cons c cs ih =>
    rw [List.mem_cons, not_or] at h
    rw [splitCommas, if_neg (Ne.symm h.1), ih h.2]

theorem splitCommas_append (a b : Text) (h : ',' ∉ a) :
    splitCommas (a ++ ',' :: b) = a :: splitCommas b := by
  induction a with
  | nil => rfl
  | cons c cs ih =>
    rw [List.mem_cons, not_or] at h
    rw [List.cons_append, splitCommas, if_neg (Ne.symm h.1), ih h.2]

/-- An operand as a canonical record writes it: without commas, spaces and tabs. -/
structure PlainText (t : Text) : Prop where
  noComma : ',' ∉ t
  noSpace : ' ' ∉ t
  noTab : '\t' ∉ t

theorem PlainText.append {a b : Text} (ha : PlainText a) (hb : PlainText b) : PlainText (a ++ b) :=
  ⟨List.not_mem_append ha.noComma hb.noComma, List.not_mem_append ha.noSpace hb.noSpace,
    List.not_mem_append ha.noTab hb.noTab⟩

theorem dropWhile_isBlank_of_noBlank {t : Text} (h : ∀ c ∈ t, isBlank c = false) :
    t.dropWhile isBlank = t := by
  cases t with
  | nil => rfl
  | cons c cs => rw [List.dropWhile_cons_of_neg (by simp [h c])]

theorem PlainText.trim_eq {t : Text} (h : PlainText t) : trim t = t := by
  have hblank : ∀ c ∈ t, isBlank c = false := fun c hc => by
    have hspace : c ≠ ' ' := fun e => h.noSpace (e ▸ hc)
    have htab : c ≠ '\t' := fun e => h.noTab (e ▸ hc)
    simp [isBlank, hspace, htab]
  rw [trim, dropWhile_isBlank_of_noBlank hblank,
    dropWhile_isBlank_of_noBlank (by simpa using hblank), List.reverse_reverse]

theorem plainText_regText (r : RegIdx) : PlainText (regText r) where
  noComma := not_mem_regText (by decide) (by decide) (by decide) r
  noSpace := not_mem_regText (by decide) (by decide) (by decide) r
  noTab := not_mem_regText (by decide) (by decide) (by decide) r

theorem plainText_of_offsetValue {o : Text} {v : Int} (h : offsetValue o = some v) : PlainText o where
  noComma := not_mem_offset_of_not_digit h (by decide) (by decide)
  noSpace := not_mem_offset_of_not_digit h (by decide) (by decide)
  noTab := not_mem_offset_of_not_digit h (by decide) (by decide)

theorem plainText_memOperand {o : Text} {v : Int} (h : offsetValue o = some v) (base : RegIdx) :
    PlainText (o ++ ['('] ++ regText base ++ [')']) := by
  have hopen : PlainText ['('] := ⟨by decide, by decide, by decide⟩
  have hclose : PlainText [')'] := ⟨by decide, by decide, by decide⟩
  exact (((plainText_of_offsetValue h).append hopen).append (plainText_regText base)).append hclose

theorem operands_cons {a : Text} (h : PlainText a) (b : Text) :
    (splitCommas (a ++ ',' :: b)).map trim = a :: (splitCommas b).map trim := by
  rw [splitCommas_append a b h.noComma, List.map_cons, h.trim_eq]

theorem operands_singleton {a : Text} (h : PlainText a) : (splitCommas a).map trim = [a] := by
  rw [splitCommas_of_not_mem h.noComma, List.map_singleton, h.trim_eq]

theorem operands_aluOperandsText (rd rs rt : RegIdx) :
    (splitCommas (aluOperandsText rd rs rt)).map trim = [regText rd, regText rs, regText rt] := by
  have shape : aluOperandsText rd rs rt = regText rd ++ ',' :: (regText rs ++ ',' :: regText rt) := by
    simp [aluOperandsText]
  rw [shape, operands_cons (plainText_regText rd), operands_cons (plainText_regText rs),
    operands_singleton (plainText_regText rt)]

theorem operands_memOperandsText (rt : RegIdx) (off : Word) (base : RegIdx) :
    (splitCommas (memOperandsText rt off base)).map trim =
      [regText rt, offsetText off ++ ['('] ++ regText base ++ [')']] := by
  have shape : memOperandsText rt off base =
      regText rt ++ ',' :: (offsetText off ++ ['('] ++ regText base ++ [')']) := by
    simp [memOperandsText]
  rw [shape, operands_cons (plainText_regText rt),
    operands_singleton (plainText_memOperand (offsetValue_offsetText off) base)]

/-! Canonical records (R86). -/

/-- The pair the Decoder makes of the canonical record of an instruction. -/
def canonicalPair : Instr → Decoded
  | .add rd rs rt => .pair "ADD".toList [regText rd, regText rs, regText rt]
  | .sub rd rs rt => .pair "SUB".toList [regText rd, regText rs, regText rt]
  | .lw rt off base => .pair "LW".toList [regText rt, offsetText off ++ ['('] ++ regText base ++ [')']]
  | .sw rt off base => .pair "SW".toList [regText rt, offsetText off ++ ['('] ++ regText base ++ [')']]
  | .unrecognized => .pair "NOP".toList ["x".toList]

theorem decodeRecord_recordText (i : Instr) : decodeRecord (recordText i) = .ok (canonicalPair i) := by
  cases i with
  | add rd rs rt =>
    rw [canonicalPair, ← operands_aluOperandsText]
    exact decodeRecord_append "ADD".toList _ (by decide)
  | sub rd rs rt =>
    rw [canonicalPair, ← operands_aluOperandsText]
    exact decodeRecord_append "SUB".toList _ (by decide)
  | lw rt off base =>
    rw [canonicalPair, ← operands_memOperandsText]
    exact decodeRecord_append "LW".toList _ (by decide)
  | sw rt off base =>
    rw [canonicalPair, ← operands_memOperandsText]
    exact decodeRecord_append "SW".toList _ (by decide)
  | unrecognized => decide

theorem resolve_canonicalPair (i : Instr) : resolve (canonicalPair i) = .ok i := by
  cases i with
  | add rd rs rt => rw [canonicalPair, resolve_add, aluOperands_regText]; rfl
  | sub rd rs rt => rw [canonicalPair, resolve_sub, aluOperands_regText]; rfl
  | lw rt off base =>
    rw [canonicalPair, resolve_lw_of_offsetValue (offsetValue_offsetText off), BitVec.ofInt_toInt]
  | sw rt off base =>
    rw [canonicalPair, resolve_sw_of_offsetValue (offsetValue_offsetText off), BitVec.ofInt_toInt]
  | unrecognized => decide

/-! From the record to the instruction, and to its word (R100, R101). -/

theorem resolveRaw_record_of_resolve {t : Text} {d : Decoded} {i : Instr}
    (hd : decodeRecord t = .ok d) (hi : resolve d = .ok i) : resolveRaw (.record t) = .ok i := by
  simp only [resolveRaw, decodeRaw, hd, hi]

theorem resolveRaw_word (w : Word) : resolveRaw (.word w) = .ok (decodeWord w) := rfl

theorem assemble_of_resolve {t : Text} {d : Decoded} {i : Instr}
    (hd : decodeRecord t = .ok d) (hi : resolve d = .ok i) : assemble t = wordOfResolved d i := by
  simp only [assemble, hd, hi]

theorem assemble_eq_some {t : Text} {w : Word} (h : assemble t = some w) :
    ∃ d i, decodeRecord t = .ok d ∧ resolve d = .ok i ∧ wordOfResolved d i = some w := by
  unfold assemble at h
  split at h
  · cases h
  · next d hd =>
    split at h
    · cases h
    · next i hi => exact ⟨d, i, hd, hi, h⟩

theorem resolveRaw_recordText (i : Instr) : resolveRaw (.record (recordText i)) = .ok i :=
  resolveRaw_record_of_resolve (decodeRecord_recordText i) (resolve_canonicalPair i)

/-- Settles O24: no operand of a canonical record holds a comma or a blank, so the Decoder gives the operands
back as they were written, and each is read as what it was written for. -/
theorem recordOfInstructionResolves : Obligations.RecordOfInstructionResolves := resolveRaw_recordText

section
variable {o : Text} {v : Int} (h : offsetValue o = some v) (opcode a : Text) (rt base : RegIdx) (off : Word)
include h

theorem wordOfResolved_lw_of_offsetValue :
    wordOfResolved (.pair opcode [a, o ++ ['('] ++ regText base ++ [')']]) (.lw rt off base) =
      if -32768 ≤ v ∧ v ≤ 32767 then some (encode (.lw rt off base)) else none := by
  simp only [wordOfResolved, pairOffsetFits, writtenOffsetFits_of_offsetValue h, decide_eq_true_eq]

theorem wordOfResolved_sw_of_offsetValue :
    wordOfResolved (.pair opcode [a, o ++ ['('] ++ regText base ++ [')']]) (.sw rt off base) =
      if -32768 ≤ v ∧ v ≤ 32767 then some (encode (.sw rt off base)) else none := by
  simp only [wordOfResolved, pairOffsetFits, writtenOffsetFits_of_offsetValue h, decide_eq_true_eq]

end

theorem toInt_bounds_of_offsetFits {off : Word} (h : offsetFits off = true) :
    -32768 ≤ off.toInt ∧ off.toInt ≤ 32767 := by
  rw [← signedOffset_of_fits h, signedOffset, BitVec.toInt_signExtend_of_le (by decide)]
  have hlt := (off.extractLsb' 0 16).toInt_lt
  have hle := (off.extractLsb' 0 16).le_toInt
  omega

theorem wordOfResolved_canonicalPair {i : Instr} (h : i.wellFormed = true) :
    wordOfResolved (canonicalPair i) i = some (encode i) := by
  cases i with
  | add | sub | unrecognized => rfl
  | lw rt off base =>
    rw [canonicalPair, wordOfResolved_lw_of_offsetValue (offsetValue_offsetText off),
      if_pos (toInt_bounds_of_offsetFits h)]
  | sw rt off base =>
    rw [canonicalPair, wordOfResolved_sw_of_offsetValue (offsetValue_offsetText off),
      if_pos (toInt_bounds_of_offsetFits h)]

theorem recordText_injective {i j : Instr} (h : recordText i = recordText j) : i = j :=
  Except.ok.inj ((resolveRaw_recordText i).symm.trans (h ▸ resolveRaw_recordText j))

theorem encode_injective {i j : Instr} (hi : i.wellFormed = true) (hj : j.wellFormed = true)
    (h : encode i = encode j) : i = j := by
  rw [← decodeOfEncode i hi, h, decodeOfEncode j hj]

/-- Settles O25: the record and the word of an instruction both lead back to it. -/
theorem recordsAndWordsCorrespond : Obligations.RecordsAndWordsCorrespond := by
  refine ⟨fun i _ hwf => ⟨?_, resolveRaw_recordText i, ?_⟩, fun i j _ _ hi hj => ⟨fun h => ?_, fun h => ?_⟩,
    by decide⟩
  · exact (assemble_of_resolve (decodeRecord_recordText i) (resolve_canonicalPair i)).trans
      (wordOfResolved_canonicalPair hwf)
  · rw [resolveRaw_word, decodeOfEncode i hwf]
  · rw [recordText_injective h]
  · rw [encode_injective hi hj h]

theorem offsetFits_of_writtenOffsetFits {b : Text} {off : Word} {base : RegIdx}
    (hparse : parseMemOperand b = some (off, base)) (hfits : writtenOffsetFits b = true) :
    offsetFits off = true := by
  obtain ⟨o, ho, rfl⟩ := (parseMemOperand_eq_some_iff b off base).1 hparse
  obtain ⟨v, hv, rfl⟩ := (parseOffset_eq_some_iff o off).1 ho
  rw [writtenOffsetFits_of_offsetValue hv, decide_eq_true_iff] at hfits
  exact offsetFits_ofInt hfits

theorem ok_of_map_ok {ε α β : Type} {f : α → β} {x : Except ε α} {b : β} (h : x.map f = .ok b) :
    ∃ a, x = .ok a ∧ f a = b := by
  cases x <;> cases h
  exact ⟨_, rfl, rfl⟩

/-- A pair that resolves to a load or a store has the operands of one. -/
theorem memOperands_of_resolve {opcode : Text} {operands : List Text} {i : Instr} {rt base : RegIdx}
    {off : Word} (h : resolve (.pair opcode operands) = .ok i)
    (hi : i = .lw rt off base ∨ i = .sw rt off base) : memOperands operands = .ok (rt, off, base) := by
  simp only [resolve, resolvePair] at h
  split_ifs at h
  · obtain ⟨p, -, rfl⟩ := ok_of_map_ok h; simp at hi
  · obtain ⟨p, -, rfl⟩ := ok_of_map_ok h; simp at hi
  · obtain ⟨p, hp, rfl⟩ := ok_of_map_ok h
    obtain ⟨rfl, rfl, rfl⟩ : p.1 = rt ∧ p.2.1 = off ∧ p.2.2 = base := by simpa using hi
    exact hp
  · obtain ⟨p, hp, rfl⟩ := ok_of_map_ok h
    obtain ⟨rfl, rfl, rfl⟩ : p.1 = rt ∧ p.2.1 = off ∧ p.2.2 = base := by simpa using hi
    exact hp
  · obtain rfl := Except.ok.inj h; simp at hi

theorem offsetFits_of_pairOffsetFits {d : Decoded} {i : Instr} {rt base : RegIdx} {off : Word}
    (hfits : pairOffsetFits d = true) (h : resolve d = .ok i)
    (hi : i = .lw rt off base ∨ i = .sw rt off base) : offsetFits off = true := by
  cases d with
  | op => cases hfits
  | pair opcode operands =>
    obtain ⟨a, b, rfl, hparse⟩ := memOperands_eq_ok (memOperands_of_resolve h hi)
    exact offsetFits_of_writtenOffsetFits hparse hfits

/-- The word of a resolved record is the word of a well-formed instruction. -/
theorem wordOfResolved_eq_some {d : Decoded} {i : Instr} {w : Word} (h : resolve d = .ok i)
    (hw : wordOfResolved d i = some w) : i.wellFormed = true ∧ encode i = w := by
  cases i with
  | add | sub | unrecognized => exact ⟨rfl, Option.some.inj hw⟩
  | lw rt off base =>
    obtain ⟨hfits, henc⟩ := Option.ite_none_right_eq_some.1 hw
    exact ⟨offsetFits_of_pairOffsetFits hfits h (.inl rfl), Option.some.inj henc⟩
  | sw rt off base =>
    obtain ⟨hfits, henc⟩ := Option.ite_none_right_eq_some.1 hw
    exact ⟨offsetFits_of_pairOffsetFits hfits h (.inr rfl), Option.some.inj henc⟩

/-- Settles O54: what a record resolves to is known from its pair, and an offset that fits as written is the
same number in the word. -/
theorem recordsWithAndWithoutWord : Obligations.RecordsWithAndWithoutWord := by
  refine ⟨fun t opcode operands hd hother => ?_, fun t o digits n v rt base hdigits hform => ?_,
    fun t f hf => ?_, fun t w hw => ?_⟩
  · have hnop := resolve_of_not_mem operands hother
    have hraw := resolveRaw_record_of_resolve hd hnop
    exact ⟨assemble_of_resolve hd hnop, hraw, fun w hw => by rw [resolveRaw_word, hw, hraw]⟩
  · have ho : offsetValue o = some v := (offsetValue_eq_some_iff o v).2 ⟨digits, n, hdigits, hform⟩
    refine ⟨fun hd => ?_, fun hd => ?_⟩
    · have hlw := resolve_lw_of_offsetValue ho rt base
      exact ⟨resolveRaw_record_of_resolve hd hlw,
        (assemble_of_resolve hd hlw).trans (wordOfResolved_lw_of_offsetValue ho ..)⟩
    · have hsw := resolve_sw_of_offsetValue ho rt base
      exact ⟨resolveRaw_record_of_resolve hd hsw,
        (assemble_of_resolve hd hsw).trans (wordOfResolved_sw_of_offsetValue ho ..)⟩
  · refine Option.eq_none_iff_forall_ne_some.2 fun w hw => ?_
    obtain ⟨d, i, hd, hi, -⟩ := assemble_eq_some hw
    rw [resolveRaw_record_of_resolve hd hi] at hf
    cases hf
  · obtain ⟨d, i, hd, hi, hword⟩ := assemble_eq_some hw
    obtain ⟨hwf, rfl⟩ := wordOfResolved_eq_some hi hword
    rw [resolveRaw_word, decodeOfEncode i hwf, resolveRaw_record_of_resolve hd hi]

end Sys2Proof.Machine

/-! PROOFS. The statements of `40_decoder.md`: where a record splits (R121, R122), that the Decoder accepts
every word (R127, R129), and when it runs (R128). -/

namespace Sys2Proof.Machine

/-! Records without a space (R122). -/

theorem splitFirst_of_not_mem {c : Char} {t : Text} (h : c ∉ t) : splitFirst c t = none := by
  refine Option.eq_none_iff_forall_ne_some.2 fun p hp => h ?_
  obtain ⟨rfl, -⟩ := (splitFirst_eq_some_iff c t p.1 p.2).1 hp
  exact List.mem_append_cons_self

theorem decodeRecord_of_not_mem {t : Text} (h : ' ' ∉ t) : decodeRecord t = .error .formatError := by
  rw [decodeRecord, splitFirst_of_not_mem h]

/-- Settles O28: a record with a space splits at its first one, so only a record without one fails. -/
theorem formatErrorIffNoSpace : Obligations.FormatErrorIffNoSpace := by
  refine fun t => ⟨⟨fun herr hmem => ?_, decodeRecord_of_not_mem⟩, ?_⟩
  · obtain ⟨opcode, rest, rfl, hfirst⟩ := List.eq_append_cons_of_mem hmem
    rw [decodeRecord_append opcode rest hfirst] at herr
    cases herr
  · rintro opcode rest rfl hfirst
    exact decodeRecord_append opcode rest hfirst

/-! Words (R127, R129). -/

/-- Settles O22: the Decoder evaluated on the six words of R129. -/
theorem wordDecodingExamples : Obligations.WordDecodingExamples := by
  unfold Obligations.WordDecodingExamples
  decide

/-- Settles O23: a word decodes to its `Op`, which resolves to itself. -/
theorem wordDecoderIsTotal : Obligations.WordDecoderIsTotal := fun w => ⟨decodeWord w, rfl, rfl⟩

/-! The way of one instruction through slots 1, 2 and 3 (`44_pipeline_sequencer.md` R174 to R176). -/

theorem State.busy_of_slot_one {s : State} {i : RawInstr} (hlatch : s.latch = none)
    (h : s.slots.s1 = .raw i) : s.busy = true := by
  refine s.busy_iff.2 ⟨Bool.eq_false_iff.2 fun hhalted => ?_, hlatch⟩
  obtain ⟨hslots, -⟩ := s.halted_iff.1 hhalted
  rw [hslots] at h
  cases h

theorem State.busy_of_slot_two {s : State} {d : Decoded} (hlatch : s.latch = none)
    (h : s.slots.s2 = .dec d) : s.busy = true :=
  s.busy_iff.2 ⟨State.not_halted_of_slot_two h, hlatch⟩

theorem State.busy_of_pc_lt {s : State} (hlatch : s.latch = none) (h : s.pc.toNat < s.programLength) :
    s.busy = true := by
  refine s.busy_iff.2 ⟨Bool.eq_false_iff.2 fun hhalted => ?_, hlatch⟩
  obtain ⟨-, hpc⟩ := s.halted_iff.1 hhalted
  exact absurd hpc h.ne

/-- A step of a busy machine that latches no fault runs all six sub-steps. -/
theorem completed_of_step {s t : State} (h : step s = .next t) (hbusy : s.busy = true)
    (ht : t.latch = none) :
    ∃ u, executeStage (memoryAccessStage (writeBackStage s)) = .next u ∧
      t = recordStage (fetchStage (decodeStage u)) := by
  cases stepForm_of_step h with
  | stopped hstopped => rw [hbusy] at hstopped; cases hstopped
  | operandFault _ _ hlatch => exact absurd ht hlatch
  | formatFault _ _ _ hlatch => exact absurd ht hlatch
  | @completed u _ hexec _ => exact ⟨u, hexec, rfl⟩

theorem decodeStage_of_ok {s : State} {i : RawInstr} {d : Decoded} (hi : s.slots.s1 = .raw i)
    (hd : decodeRaw i = .ok d) :
    decodeStage s = { s with slots := { s.slots with s1 := .empty, s2 := .dec d } } := by
  simp only [decodeStage, hi, hd]

/-- A fault-free step decodes the occupant of slot 1 into slot 2. -/
theorem step_decodes_slot_one {s t : State} {i : RawInstr} {d : Decoded} (h : step s = .next t)
    (hs : s.latch = none) (ht : t.latch = none) (hi : s.slots.s1 = .raw i) (hd : decodeRaw i = .ok d) :
    t.slots.s2 = .dec d := by
  obtain ⟨u, hexec, rfl⟩ := completed_of_step h (State.busy_of_slot_one hs hi) ht
  obtain ⟨-, -, -, h1⟩ := executed_frame hexec
  simp [decodeStage_of_ok (h1.trans hi) hd]

/-- A fault-free step executes the occupant of slot 2 and moves it to slot 3. -/
theorem step_executes_slot_two {s t : State} {d : Decoded} {i : Instr} (h : step s = .next t)
    (hs : s.latch = none) (ht : t.latch = none) (hd : s.slots.s2 = .dec d) (hi : resolve d = .ok i) :
    t.slots.s3 = .dec d ∧ ∃ x, exec i s = .next x ∧ SameData t x := by
  obtain ⟨u, hexec, rfl⟩ := completed_of_step h (State.busy_of_slot_two hs hd) ht
  obtain ⟨x, hx, -⟩ := exec_frame i (memoryAccessStage (writeBackStage s))
  rw [executeStage_of_ok (by simpa using hd) hi hx] at hexec
  cases hexec
  have hdata : SameData (memoryAccessStage (writeBackStage s)) s := by simp [SameData]
  obtain ⟨x', hx', hsame⟩ := exec_sameData hdata hx
  exact ⟨by simp, x', hx', SameData.trans (by simp [SameData]) hsame⟩

/-- Settles O33: at the word level no step raises, so each of the three steps moves the instruction one slot
on. -/
theorem fetchedWordExecutesInThirdStep : Obligations.FetchedWordExecutesInThirdStep := by
  intro s w _ hword hs hfetch
  obtain ⟨t, hst⟩ := step_answers s
  obtain ⟨u, htu⟩ := step_answers t
  obtain ⟨v, huv⟩ := step_answers u
  have ht := wordLevelUnlatched_keptBySubSteps.of_step ⟨hword, hs⟩ hst
  have hu := wordLevelUnlatched_keptBySubSteps.of_step ht htu
  have hv := wordLevelUnlatched_keptBySubSteps.of_step hu huv
  have fetched : t.slots.s1 = .raw (.word w) := by
    obtain ⟨hlt, -⟩ := List.getElem?_eq_some_iff.1 hfetch
    obtain ⟨-, h1⟩ := (pcAdvancesOnlyByFetch s t hst).1 (State.busy_of_pc_lt hs hlt) ht.2 hlt
    rw [h1, rawAt, hfetch]
  have decoded := step_decodes_slot_one htu ht.2 hu.2 fetched (show decodeRaw (.word w) = _ from rfl)
  obtain ⟨executed, x, hx, hsame⟩ := step_executes_slot_two huv hu.2 hv.2 decoded rfl
  exact ⟨t, u, v, x, hst, htu, huv, fetched, decoded, executed, hx, hsame⟩

end Sys2Proof.Machine

/-! PROOFS. The statements of `41_executor_dispatch.md`: what the Executor reads and writes (R130, R136), the
unrecognized instruction (R134), and the two operand faults (R132, R133). -/

namespace Sys2Proof.Machine

/-- Settles O11: a word that selects no row is unrecognized (O21), and so is a pair with none of the four
opcodes. -/
theorem unrecognizedDoesNothing : Obligations.UnrecognizedDoesNothing :=
  have ⟨_, _, noRow⟩ := opcodeRowsDisjoint
  ⟨exec_unrecognized, fun w h => (noRow w).1 h, fun _ operands h => resolve_of_not_mem operands h⟩

/-- Settles O18: `exec_frame` says what an instruction keeps, `exec_sameData` what its effect depends on. -/
theorem executorReadsAndWritesDataOnly : Obligations.ExecutorReadsAndWritesDataOnly := by
  intro i s t hdata
  obtain ⟨s', hs', kept⟩ := exec_frame i s
  obtain ⟨t', ht', hsame⟩ := exec_sameData hdata hs'
  exact ⟨s', t', hs', ht', hsame, kept⟩

/-! Sources before destination (R136). The registers may coincide: the value written is made of the old
ones. -/

theorem exec_add_readReg_destination (rd rs rt : RegIdx) (s : State) :
    ∃ t, exec (.add rd rs rt) s = .next t ∧ t.readReg rd = s.readReg rs + s.readReg rt :=
  ⟨_, exec_add rd rs rt s, s.readReg_writeReg_self rd _⟩

theorem exec_sub_readReg_destination (rd rs rt : RegIdx) (s : State) :
    ∃ t, exec (.sub rd rs rt) s = .next t ∧ t.readReg rd = s.readReg rs - s.readReg rt :=
  ⟨_, exec_sub rd rs rt s, s.readReg_writeReg_self rd _⟩

theorem exec_lw_readReg_destination (rt : RegIdx) (off : Word) (base : RegIdx) (s : State) :
    ∃ t, exec (.lw rt off base) s = .next t ∧ t.readReg rt = s.memRead (s.readReg base + off) :=
  ⟨_, exec_lw rt off base s, s.readReg_writeReg_self rt _⟩

theorem exec_sw_memRead_destination {s : State} (hwf : s.mem.wf) (rt : RegIdx) (off : Word) (base : RegIdx) :
    ∃ t, exec (.sw rt off base) s = .next t ∧ t.memRead (s.readReg base + off) = s.readReg rt :=
  ⟨_, exec_sw rt off base s, State.memRead_memWrite_self hwf _ _⟩

/-- An operand fault only sets the latch. -/
theorem sameData_of_operand_fault {s t : State} {d : Decoded} {k : FaultKind} (hd : s.slots.s2 = .dec d)
    (hk : resolve d = .error k) (h : executeStage s = .next t) : SameData s t := by
  rw [executeStage_of_error hd hk] at h
  cases h
  exact ⟨rfl, rfl, rfl⟩

/-- Settles O15: the destination reads as what the old sources give, whichever registers coincide. -/
theorem sourcesReadBeforeWrite : Obligations.SourcesReadBeforeWrite :=
  ⟨fun s r q => ⟨exec_add_readReg_destination r r r s, exec_add_readReg_destination r r q s,
      exec_add_readReg_destination r q r s, exec_sub_readReg_destination r r q s,
      exec_sub_readReg_destination r q r s⟩,
    fun s r off => exec_lw_readReg_destination r off r s,
    fun _ r off hwf => exec_sw_memRead_destination hwf r off r,
    fun _ _ _ _ hd hk h => sameData_of_operand_fault hd hk h⟩

/-! The two operand faults (R132, R133): when each list of operands raises which. -/

theorem parseReg_eq_none_iff (t : Text) : parseReg t = none ↔ ∀ r, t ≠ regText r := by
  simp only [Option.eq_none_iff_forall_ne_some, ne_eq, parseReg_eq_some_iff]

theorem parseMemOperand_eq_none_iff (t : Text) : parseMemOperand t = none ↔
    ∀ o off base, parseOffset o = some off → t ≠ o ++ ['('] ++ regText base ++ [')'] := by
  simp only [Option.eq_none_iff_forall_ne_some, Prod.forall, ne_eq, parseMemOperand_eq_some_iff, not_exists,
    not_and]
  exact ⟨fun h o off base => h off base o, fun h off base o => h o off base⟩

theorem aluOperands_eq_arityError_iff (operands : List Text) :
    aluOperands operands = .error .operandArityError ↔ operands.length ≠ 3 := by
  unfold aluOperands
  split
  · split <;> simp
  · next hne => simpa [List.length_eq_three] using hne

theorem memOperands_eq_arityError_iff (operands : List Text) :
    memOperands operands = .error .operandArityError ↔ operands.length ≠ 2 := by
  unfold memOperands
  split
  · split <;> simp
  · next hne => simpa [List.length_eq_two] using hne

/-- Three operands that all read as registers raise nothing. -/
theorem aluOperands_eq_formError_iff (operands : List Text) :
    aluOperands operands = .error .operandFormError ↔
      operands.length = 3 ∧ ∃ t ∈ operands, parseReg t = none := by
  constructor
  · intro h
    have hlen : operands.length = 3 := by
      by_contra hne
      cases h.symm.trans ((aluOperands_eq_arityError_iff operands).2 hne)
    refine ⟨hlen, ?_⟩
    obtain ⟨a, b, c, rfl⟩ := List.length_eq_three.1 hlen
    by_contra! hregs
    obtain ⟨rd, ha⟩ := Option.ne_none_iff_exists'.1 (hregs a (by simp))
    obtain ⟨rs, hb⟩ := Option.ne_none_iff_exists'.1 (hregs b (by simp))
    obtain ⟨rt, hc⟩ := Option.ne_none_iff_exists'.1 (hregs c (by simp))
    simp [aluOperands, ha, hb, hc] at h
  · rintro ⟨hlen, t, ht, hnone⟩
    obtain ⟨a, b, c, rfl⟩ := List.length_eq_three.1 hlen
    refine aluOperands_of_parseReg_eq_none ?_
    simp only [List.mem_cons, List.not_mem_nil, or_false] at ht
    obtain rfl | rfl | rfl := ht
    · exact .inl hnone
    · exact .inr (.inl hnone)
    · exact .inr (.inr hnone)

/-- A register and a memory operand raise nothing. -/
theorem memOperands_eq_formError_iff (operands : List Text) :
    memOperands operands = .error .operandFormError ↔
      ∃ a b, operands = [a, b] ∧ (parseReg a = none ∨ parseMemOperand b = none) := by
  constructor
  · intro h
    have hlen : operands.length = 2 := by
      by_contra hne
      cases h.symm.trans ((memOperands_eq_arityError_iff operands).2 hne)
    obtain ⟨a, b, rfl⟩ := List.length_eq_two.1 hlen
    refine ⟨a, b, rfl, ?_⟩
    by_contra! hparse
    obtain ⟨rt, ha⟩ := Option.ne_none_iff_exists'.1 hparse.1
    obtain ⟨p, hb⟩ := Option.ne_none_iff_exists'.1 hparse.2
    simp [memOperands, ha, hb] at h
  · rintro ⟨a, b, rfl, hnone⟩
    exact memOperands_of_parse_eq_none hnone

/-- A pair raises exactly what its operands raise, and only under one of the four opcodes. -/
theorem resolve_pair_eq_error_iff (opcode : Text) (operands : List Text) (k : FaultKind) :
    resolve (.pair opcode operands) = .error k ↔
      (opcode ∈ ["ADD".toList, "SUB".toList] ∧ aluOperands operands = .error k) ∨
      (opcode ∈ ["LW".toList, "SW".toList] ∧ memOperands operands = .error k) := by
  constructor
  · intro h
    by_cases hop : opcode ∈ ["ADD".toList, "SUB".toList, "LW".toList, "SW".toList]
    · simp only [List.mem_cons, List.not_mem_nil, or_false] at hop
      obtain rfl | rfl | rfl | rfl := hop
      · exact .inl ⟨by simp, error_of_map_error h⟩
      · exact .inl ⟨by simp, error_of_map_error h⟩
      · exact .inr ⟨by simp, error_of_map_error h⟩
      · exact .inr ⟨by simp, error_of_map_error h⟩
    · cases h.symm.trans (resolve_of_not_mem operands hop)
  · rintro (⟨hop, h⟩ | ⟨hop, h⟩)
    · exact resolve_aluOperands_error hop h
    · exact resolve_memOperands_error hop h

/-- Settles O29: the count is looked at first, and is all that this fault depends on. -/
theorem operandCountErrors : Obligations.OperandCountErrors := by
  intro opcode operands
  rw [resolve_pair_eq_error_iff, aluOperands_eq_arityError_iff, memOperands_eq_arityError_iff]

/-- Settles O30: an operand reads as a register or a memory operand exactly when it is the text of one. -/
theorem operandShapeErrors : Obligations.OperandShapeErrors := by
  intro opcode operands
  simp only [resolve_pair_eq_error_iff, aluOperands_eq_formError_iff, memOperands_eq_formError_iff,
    parseReg_eq_none_iff, parseMemOperand_eq_none_iff]

end Sys2Proof.Machine

/-! PROOFS. The statements of `42_alu_add_sub.md`: the result is the true one modulo 2^32 (R140), and ADD
(R141) and SUB (R142) change the destination alone. -/

namespace Sys2Proof.Machine

/-- All that one register write does and leaves alone. -/
theorem State.writeReg_writesOnly (s : State) (r : RegIdx) (v : Word) :
    (s.writeReg r v).readReg r = v ∧ (∀ q, q ≠ r → (s.writeReg r v).readReg q = s.readReg q) ∧
      (∀ a, (s.writeReg r v).memRead a = s.memRead a) ∧ SameButRegs s (s.writeReg r v) :=
  ⟨s.readReg_writeReg_self r v, fun _ hne => s.readReg_writeReg_of_ne v hne, s.memRead_writeReg r v,
    by simp [SameButRegs]⟩

/-- Settles O7: ADD is one register write. -/
theorem addWritesSumOnly : Obligations.AddWritesSumOnly := fun rd rs rt s =>
  ⟨_, exec_add rd rs rt s, s.writeReg_writesOnly rd _⟩

/-- Settles O8: SUB is one register write, the first source being the minuend. -/
theorem subWritesDifferenceOnly : Obligations.SubWritesDifferenceOnly := fun rd rs rt s =>
  ⟨_, exec_sub rd rs rt s, s.writeReg_writesOnly rd _⟩

/-! Words as numbers (R140). -/

/-- The unsigned difference wraps as an integer, where `BitVec.toNat_sub` adds 2^32 to stay natural. -/
theorem natCast_toNat_sub (a b : Word) : ((a - b).toNat : Int) = (a.toNat - b.toNat : Int) % 2 ^ 32 := by
  rw [BitVec.toNat_sub]
  have hb : b.toNat < 2 ^ 32 := b.isLt
  omega

theorem bmod_eq_of_signedRange {x : Int} (hlow : -2 ^ 31 ≤ x) (hhigh : x < 2 ^ 31) : x.bmod (2 ^ 32) = x :=
  Int.bmod_eq_of_le_mul_two (by omega) (by omega)

theorem Instr.mnemonic_mem (i : Instr) : i.mnemonic ∈ ["ADD", "SUB", "LW", "SW", "UNRECOGNIZED"] := by
  cases i <;> simp [Instr.mnemonic]

/-- Settles O6: the destination holds the sum or difference of words, and its number, unsigned or signed, is
the true one reduced; the signed reduction does nothing within the signed range. -/
theorem arithmeticWraps : Obligations.ArithmeticWraps := by
  refine ⟨Instr.mnemonic_mem, fun rd rs rt s => ?_⟩
  have sumInt := BitVec.toInt_add (s.readReg rs) (s.readReg rt)
  have diffInt := BitVec.toInt_sub (x := s.readReg rs) (y := s.readReg rt)
  refine ⟨_, _, exec_add rd rs rt s, exec_sub rd rs rt s, State.writeReg_latch .., State.writeReg_latch .., ?_⟩
  rw [State.readReg_writeReg_self, State.readReg_writeReg_self]
  exact ⟨BitVec.toNat_add .., natCast_toNat_sub .., sumInt, diffInt,
    fun hlow hhigh => sumInt.trans (bmod_eq_of_signedRange hlow hhigh),
    fun hlow hhigh => diffInt.trans (bmod_eq_of_signedRange hlow hhigh)⟩

end Sys2Proof.Machine

/-! PROOFS. The statements of `43_load_store.md`: the one addressing mode (R150), LW (R151), SW (R152), and
the two memory primitives (R153). -/

namespace Sys2Proof.Machine

/-- All that one memory write does and leaves alone. -/
theorem State.memWrite_writesOnly {s : State} (h : s.memoryWf) (a v : Word) :
    (s.memWrite a v).memRead a = v ∧ (∀ b, b ≠ a → (s.memWrite a v).memRead b = s.memRead b) ∧
      (∀ k, k ∈ (s.memWrite a v).keys ↔ k = a.toNat ∨ k ∈ s.keys) ∧
      (∀ r, (s.memWrite a v).readReg r = s.readReg r) ∧ SameButMemory s (s.memWrite a v) ∧
      (s.memWrite a v).memoryWf :=
  ⟨State.memRead_memWrite_self h.1 a v, fun _ hne => s.memRead_memWrite_of_ne v hne,
    KeySet.mem_add s.keys a.toNat, s.readReg_memWrite a v, by simp [SameButMemory],
    State.memoryWf_memWrite h a v⟩

/-- Settles O9: LW is one register write, of the value of the cell. -/
theorem lwLoadsCellOnly : Obligations.LwLoadsCellOnly := fun rt off base s =>
  ⟨_, exec_lw rt off base s, s.writeReg_writesOnly rt _⟩

/-- Settles O10: SW is one memory write, of the register's value. -/
theorem swStoresCellOnly : Obligations.SwStoresCellOnly := fun rt off base s hwf =>
  ⟨_, exec_sw rt off base s, State.memWrite_writesOnly hwf _ _⟩

/-! Where an offset comes from (R150). -/

/-- At the word level only LW and SW hold an offset, and it is the sign extension of the field. -/
theorem offset_of_decodeWord {w : Word} {rt base : RegIdx} {off : Word}
    (h : decodeWord w = .lw rt off base ∨ decodeWord w = .sw rt off base) :
    off = signedOffset (fieldImm w) := by
  obtain hw | ⟨rs, rt', rd, rfl⟩ | ⟨rs, rt', rd, rfl⟩ | ⟨base', rt', imm, rfl⟩ | ⟨base', rt', imm, rfl⟩ :=
    decodeWord_cases w
  · simp [hw] at h
  · simp at h
  · simp at h
  · obtain ⟨-, rfl, -⟩ : rt' = rt ∧ signedOffset imm = off ∧ base' = base := by simpa using h
    rw [fieldImm_iFormat]
  · obtain ⟨-, rfl, -⟩ : rt' = rt ∧ signedOffset imm = off ∧ base' = base := by simpa using h
    rw [fieldImm_iFormat]

/-- At the record level an offset without a sign is worth its number, taken modulo 2^32. -/
theorem resolve_of_decimal {digits : Text} {n : Nat} (h : decimal digits = some n) (rt base : RegIdx) :
    resolve (.pair "LW".toList [regText rt, digits ++ ['('] ++ regText base ++ [')']]) =
      .ok (.lw rt (BitVec.ofNat 32 n) base) ∧
    resolve (.pair "SW".toList [regText rt, digits ++ ['('] ++ regText base ++ [')']]) =
      .ok (.sw rt (BitVec.ofNat 32 n) base) := by
  rw [← BitVec.ofInt_natCast]
  exact ⟨resolve_lw_of_offsetValue (offsetValue_of_decimal h) rt base,
    resolve_sw_of_offsetValue (offsetValue_of_decimal h) rt base⟩

/-- Settles O13: a load is one register write and a store one memory write, at base plus offset as it is;
the base register is no destination, or is the register loaded. -/
theorem addressIsBasePlusOffset : Obligations.AddressIsBasePlusOffset := by
  refine ⟨fun rt off base s => ?_, fun rt off base s hwf => ?_, fun w rt off base h => offset_of_decodeWord h,
    fun digits n rt base h => ?_⟩
  · obtain ⟨t, hexec, hvalue, hothers, -⟩ := lwLoadsCellOnly rt off base s
    exact ⟨t, hexec, hvalue, hothers base⟩
  · obtain ⟨t, hexec, hcell, hothers, -, hregs, -⟩ := swStoresCellOnly rt off base s hwf
    exact ⟨t, hexec, hcell, hothers, hregs base⟩
  · obtain ⟨hlw, hsw⟩ := resolve_of_decimal h rt base
    exact ⟨hlw, hsw, resolve_lw_of_offsetValue (offsetValue_of_minus h) rt base,
      resolve_sw_of_offsetValue (offsetValue_of_minus h) rt base⟩

/-- An instruction other than LW and SW keeps data memory and key set, and does the same whatever they
hold. -/
theorem exec_ignores_memory {i : Instr} (h : ∀ rt off base, i ≠ .lw rt off base ∧ i ≠ .sw rt off base)
    (s : State) (m : Memory) (ks : KeySet) :
    ∃ t u, exec i s = .next t ∧ exec i { s with mem := m, keys := ks } = .next u ∧
      t.mem = s.mem ∧ t.keys = s.keys ∧ u = { t with mem := m, keys := ks } := by
  cases i with
  | add rd rs rt => exact ⟨_, _, rfl, rfl, rfl, rfl, rfl⟩
  | sub rd rs rt => exact ⟨_, _, rfl, rfl, rfl, rfl, rfl⟩
  | lw rt off base => exact absurd rfl (h rt off base).1
  | sw rt off base => exact absurd rfl (h rt off base).2
  | unrecognized => exact ⟨s, _, rfl, rfl, rfl, rfl, rfl⟩

/-- Settles O14: the read and the write as their laws say, a load and a store each one of them, and the
other three instructions by cases. -/
theorem memoryPrimitives : Obligations.MemoryPrimitives := by
  refine ⟨fun _ _ hwf ha => State.memRead_of_not_mem_keys hwf ha, fun s a v hwf => ?_, fun rt off base s => ?_,
    exec_sw, fun i s m ks h => exec_ignores_memory h s m ks⟩
  · obtain ⟨hcell, hothers, hkeys, -⟩ := State.memWrite_writesOnly hwf a v
    exact ⟨hcell, hothers, fun k => (hkeys k).trans or_comm⟩
  · exact ⟨_, exec_lw rt off base s, s.readReg_writeReg_self rt _, State.writeReg_mem .., State.writeReg_keys ..⟩

end Sys2Proof.Machine

/-! PROOFS. The statements of `44_pipeline_sequencer.md`: one step as a simultaneous assignment (R182), the
timetable it advances (R183), and with it whole runs: their length (R184), their data (R189) and their end
(R179, R235). -/

namespace Sys2Proof.Machine

/-! One step. -/

/-- Settles O31: slot 2 keeps the machine busy, and the instruction it holds raises nothing. -/
theorem stepRunsDecodedInstruction : Obligations.StepRunsDecodedInstruction := by
  intro s t d i hs hd hi ht
  have hexec := executeStage_of_ok (s := memoryAccessStage (writeBackStage s)) (by simpa using hd) hi ht
  obtain ⟨t', ht', -, -, -, -, hlatch, -⟩ := exec_frame i (memoryAccessStage (writeBackStage s))
  cases ht.symm.trans ht'
  have hnone : (t.moveExecuted d).faulted = false := (State.faulted_iff _).2 (by simp [hlatch, hs])
  simp [step_of_busy (State.busy_of_slot_two hs hd), cycle, hexec, hnone]

/-- Settles O35: a machine that is halted or has a fault latched is not busy. -/
theorem stoppedMachineKeepsState : Obligations.StoppedMachineKeepsState := by
  rintro s (hhalted | hlatch)
  · exact step_of_not_busy (by simp [State.busy, s.halted_iff.2 hhalted])
  · exact step_of_latched hlatch

theorem sameData_of_slot_two_empty {s t : State} (h2 : s.slots.s2 = .empty) (h : step s = .next t) :
    SameData t s := by
  obtain hsame | ⟨d, -, -, hd, -⟩ := step_data h
  · exact hsame
  · rw [h2] at hd
    cases hd

/-- Settles O47: a step changes data only as the instruction in slot 2 does. -/
theorem effectsCommitInExecuteOnly : Obligations.EffectsCommitInExecuteOnly :=
  fun _ _ => sameData_of_slot_two_empty

/-! A step that raises nothing (R182). -/

theorem latch_of_decodeStage {s : State} (h : (decodeStage s).latch = none) : s.latch = none := by
  obtain ⟨-, e⟩ | ⟨i, k, -, -, e⟩ | ⟨i, d, -, -, e⟩ := decodeStage_cases s <;> rw [e] at h
  · exact h
  · cases h
  · exact h

theorem decodeStage_of_error {s : State} {i : RawInstr} {k : FaultKind} (hi : s.slots.s1 = .raw i)
    (hk : decodeRaw i = .error k) : decodeStage s = s.raise k (.raw i) := by
  simp only [decodeStage, hi, hk]

/-- A step that latches nothing has resolved the occupant of slot 2. -/
theorem resolves_of_step {s t : State} (h : step s = .next t) (hs : s.latch = none) (ht : t.latch = none)
    {d : Decoded} (hd : s.slots.s2 = .dec d) : ∃ i, resolve d = .ok i := by
  obtain ⟨u, hexec, rfl⟩ := completed_of_step h (State.busy_of_slot_two hs hd) ht
  cases hi : resolve d with
  | ok i => exact ⟨i, rfl⟩
  | error k =>
    rw [executeStage_of_error (by simpa using hd) hi] at hexec
    cases hexec
    have hnone := latch_of_decodeStage (by simpa using ht)
    cases hnone

/-- A step that latches nothing has decoded the occupant of slot 1. -/
theorem decodes_of_step {s t : State} (h : step s = .next t) (hs : s.latch = none) (ht : t.latch = none)
    {i : RawInstr} (hi : s.slots.s1 = .raw i) : ∃ d, decodeRaw i = .ok d := by
  obtain ⟨u, hexec, rfl⟩ := completed_of_step h (State.busy_of_slot_one hs hi) ht
  obtain ⟨-, -, -, h1⟩ := executed_frame hexec
  cases hd : decodeRaw i with
  | ok d => exact ⟨d, rfl⟩
  | error k => simp [decodeStage_of_error (h1.trans hi) hd] at ht

/-- The first three sub-steps on typed slots, where they raise nothing: slots 2, 3 and 4 move on. -/
theorem executed_of_typed {s u : State} (htyped : s.slots.typed)
    (hexec : executeStage (memoryAccessStage (writeBackStage s)) = .next u) (hu : u.latch = none) :
    u.slots = ⟨.empty, s.slots.s1, .empty, s.slots.s2, s.slots.s3⟩ ∧
      u.retired = s.retired ++ s.slots.s4.decodedOccupant := by
  have ⟨h0, _, h2, _, _⟩ := htyped
  rw [memoryAccess_writeBack_of_typed htyped] at hexec
  obtain ⟨hne, e⟩ | ⟨d, k, -, -, e⟩ | ⟨d, i, v, hd, -, hv, e⟩ := executeStage_cases _ <;>
    rw [e] at hexec <;> cases hexec
  · cases hslot : s.slots.s2 with
    | empty => simp [h0, hslot]
    | raw i => rw [hslot] at h2; cases h2
    | dec d => exact absurd hslot (hne d)
  · cases hu
  · obtain ⟨v', hv', -, hslots, -, hretired, -⟩ := exec_frame i _
    cases hv.symm.trans hv'
    have hslot : s.slots.s2 = .dec d := hd
    exact ⟨by simp [hslots, h0, hslot], hretired⟩

theorem decodeStage_of_slot_one_empty {s : State} (h : s.slots.s1 = .empty) : decodeStage s = s := by
  simp only [decodeStage, h]

/-- A Decode sub-step that raises nothing empties a typed slot 1. -/
theorem decodeStage_slots_s1 {s : State} (htyped : s.slots.s1.emptyOrRaw = true)
    (hnone : (decodeStage s).latch = none) : (decodeStage s).slots.s1 = .empty := by
  obtain ⟨hne, e⟩ | ⟨i, k, -, -, e⟩ | ⟨i, d, -, -, e⟩ := decodeStage_cases s <;> rw [e] at hnone ⊢
  · cases hslot : s.slots.s1 with
    | empty => rfl
    | raw i => exact absurd hslot (hne i)
    | dec d => rw [hslot] at htyped; cases htyped
  · cases hnone

theorem rawAt_of_le {program : List RawInstr} {k : Nat} (h : program.length ≤ k) :
    rawAt program k = .empty := by
  rw [rawAt, List.getElem?_eq_none h]

theorem fetchStage_slots_s1 {s : State} (h : s.slots.s1 = .empty) :
    (fetchStage s).slots.s1 = rawAt s.imem s.pc.toNat := by
  rcases Nat.lt_or_ge s.pc.toNat s.programLength with hlt | hge
  · exact (fetchStage_of_lt hlt).2
  · rw [fetchStage_of_le hge, h, rawAt_of_le hge]

/-- Slots, retire log, `pc` and history after the simultaneous assignment of the parallel form (R182). -/
structure StepsInParallel (s t : State) : Prop where
  retired : t.retired = s.retired ++ s.slots.s4.decodedOccupant
  slot0 : t.slots.s0 = .empty
  fetched : t.slots.s1 = rawAt s.imem s.pc.toNat
  bubble : s.slots.s1 = .empty → t.slots.s2 = .empty
  decoded : ∀ i d, s.slots.s1 = .raw i → decodeRaw i = .ok d → t.slots.s2 = .dec d
  executed : t.slots.s3 = s.slots.s2
  accessed : t.slots.s4 = s.slots.s3
  pc : t.pc = if s.pc.toNat < s.programLength then s.pc + 1#32 else s.pc
  hist : t.hist = s.hist ++ [t.slots]

/-- A busy step that latches nothing is the simultaneous assignment. -/
theorem stepsInParallel_of_step {s t : State} (h : step s = .next t) (hbusy : s.busy = true)
    (htyped : s.slots.typed) (ht : t.latch = none) : StepsInParallel s t := by
  obtain ⟨hrecord, -⟩ := historyIsAppendOnly s t h
  obtain ⟨hadvance, hkeep⟩ := pcAdvancesOnlyByFetch s t h
  obtain ⟨u, hexec, e⟩ := completed_of_step h hbusy ht
  have hnone : (decodeStage u).latch = none := by simpa [e] using ht
  obtain ⟨hslots, hretired⟩ := executed_of_typed htyped hexec (latch_of_decodeStage hnone)
  obtain ⟨hpc, -, himem, h1⟩ := executed_frame hexec
  obtain ⟨-, htyped1, -⟩ := htyped
  have hempty := decodeStage_slots_s1 (h1 ▸ htyped1) hnone
  refine {
    retired := by simp [e, hretired]
    slot0 := by simp [e, hslots]
    fetched := by simp [e, fetchStage_slots_s1 hempty, himem, hpc]
    bubble := fun hs1 => by simp [e, decodeStage_of_slot_one_empty (h1.trans hs1), hslots]
    decoded := fun i d hi hd => step_decodes_slot_one h (State.latch_of_busy hbusy) ht hi hd
    executed := by simp [e, hslots]
    accessed := by simp [e, hslots]
    pc := ?_
    hist := hrecord hbusy ht }
  split_ifs with hlt
  · exact (hadvance hbusy ht hlt).1
  · exact hkeep (.inr (.inr (Nat.le_of_not_lt hlt)))

/-- Settles O34: with slots 1 and 2 sound the step latches nothing, and then it is the simultaneous
assignment. -/
theorem stepIsParallelForm : Obligations.StepIsParallelForm := by
  intro s hbusy htyped hresolves hdecodes
  have hs := State.latch_of_busy hbusy
  obtain ⟨t, h⟩ := step_answers s
  have ht : t.latch = none := by
    by_contra hne
    obtain ⟨f, hf⟩ := Option.ne_none_iff_exists'.1 hne
    obtain ⟨d, hd, hk, -⟩ | ⟨i, hi, hk, -⟩ := latch_cause_of_step hs h hf
    · obtain ⟨i, hi⟩ := hresolves d hd
      cases hk.symm.trans hi
    · obtain ⟨d, hd⟩ := hdecodes i hi
      cases hk.symm.trans hd
  have par := stepsInParallel_of_step h hbusy htyped ht
  refine ⟨t, h, par.retired, par.accessed, par.executed, fun h2 => sameData_of_slot_two_empty h2 h,
    fun d i u hd hi hu => ?_, par.bubble, par.decoded, par.fetched, par.pc, par.slot0, par.hist, ht,
    programNeverChanges s t h⟩
  obtain ⟨-, x, hx, hsame⟩ := step_executes_slot_two h hs ht hd hi
  cases hx.symm.trans hu
  exact hsame

/-! The timetable of R183: what its records hold, and how each follows from the one before. -/

theorem rawAt_of_getElem? {program : List RawInstr} {k : Nat} {i : RawInstr} (h : program[k]? = some i) :
    rawAt program k = .raw i := by
  rw [rawAt, h]

theorem decodedAt_of_le {program : List RawInstr} {k : Nat} (h : program.length ≤ k) :
    decodedAt program k = .empty := by
  rw [decodedAt, List.getElem?_eq_none h]

theorem decodedAt_of_getElem? {program : List RawInstr} {k : Nat} {i : RawInstr} {d : Decoded}
    (hi : program[k]? = some i) (hd : decodeRaw i = .ok d) : decodedAt program k = .dec d := by
  simp only [decodedAt, hi, hd]

theorem decodedAt_eq_dec {program : List RawInstr} {k : Nat} {d : Decoded}
    (h : decodedAt program k = .dec d) : ∃ i, program[k]? = some i ∧ decodeRaw i = .ok d := by
  unfold decodedAt at h
  split at h
  · next i hi =>
    split at h <;> cases h
    next hd => exact ⟨i, hi, hd⟩
  · cases h

@[simp] theorem Slot.emptyOrRaw_empty : Slot.empty.emptyOrRaw = true := rfl

@[simp] theorem Slot.emptyOrDec_empty : Slot.empty.emptyOrDec = true := rfl

@[simp] theorem emptyOrRaw_rawAt (program : List RawInstr) (k : Nat) : (rawAt program k).emptyOrRaw = true := by
  unfold rawAt
  split <;> rfl

@[simp] theorem emptyOrDec_decodedAt (program : List RawInstr) (k : Nat) :
    (decodedAt program k).emptyOrDec = true := by
  unfold decodedAt
  split
  · split <;> rfl
  · rfl

theorem recordAt_typed (program : List RawInstr) (c : Nat) : (recordAt program c).typed := by
  refine ⟨rfl, ?_, ?_, ?_, ?_⟩ <;> dsimp only [recordAt] <;> split_ifs <;> simp

/-- The number of cycles of a run that raises nothing (R184). -/
def cycleTotal (n : Nat) : Nat := if n = 0 then 0 else n + 4

theorem cycleTotal_of_pos {n : Nat} (h : 1 ≤ n) : cycleTotal n = n + 4 := if_neg (Nat.ne_of_gt h)

theorem cycleTotal_le_iff (n c : Nat) : cycleTotal n ≤ c ↔ n = 0 ∨ n + 4 ≤ c := by
  unfold cycleTotal
  split <;> omega

theorem cycleTotal_le (n : Nat) : cycleTotal n ≤ n + 4 := (cycleTotal_le_iff n _).2 (.inr (Nat.le_refl _))

/-- By the last cycle every instruction has left slot 2. -/
theorem le_cycleTotal_sub_two (n : Nat) : n ≤ cycleTotal n - 2 := by
  unfold cycleTotal
  split <;> omega

/-- Once the pipeline has drained, every slot is empty. -/
theorem recordAt_of_le {program : List RawInstr} {c : Nat} (h : cycleTotal program.length ≤ c) :
    recordAt program c = Slots.allEmpty := by
  rw [cycleTotal_le_iff] at h
  simp [recordAt, Slots.allEmpty, rawAt_of_le (show program.length ≤ c - 1 by omega),
    decodedAt_of_le (show program.length ≤ c - 2 by omega),
    decodedAt_of_le (show program.length ≤ c - 3 by omega),
    decodedAt_of_le (show program.length ≤ c - 4 by omega)]

/-- Until the pipeline has drained, some slot is occupied: slot 1 during the fetches, then the slot where the
last instruction is. -/
theorem recordAt_ne_allEmpty {program : List RawInstr} {c : Nat} (hc : 1 ≤ c)
    (hlt : c < cycleTotal program.length)
    (hdecodes : ∀ i ∈ program.take (c - 1), ∃ d, decodeRaw i = .ok d) :
    recordAt program c ≠ Slots.allEmpty := by
  rw [← Nat.not_le, cycleTotal_le_iff] at hlt
  intro he
  simp only [recordAt, Slots.allEmpty, Slots.mk.injEq, true_and] at he
  obtain ⟨h1, h2, h3, h4⟩ := he
  rcases Nat.lt_or_ge program.length c with hgt | hle
  · obtain ⟨d, hd⟩ := hdecodes _ (List.mem_take_iff_getElem.2 ⟨program.length - 1, by omega, rfl⟩)
    have hlast := decodedAt_of_getElem? (List.getElem?_eq_getElem (by omega)) hd
    obtain rfl | rfl | rfl : c = program.length - 1 + 2 ∨ c = program.length - 1 + 3 ∨
        c = program.length - 1 + 4 := by omega
    · simp [hlast] at h2
    · simp [hlast] at h3
    · simp [hlast] at h4
  · have hraw := rawAt_of_getElem? (List.getElem?_eq_getElem (l := program) (show c - 1 < _ by omega))
    simp [hc, hraw] at h1

theorem decodedAll_append (l l' : List RawInstr) : decodedAll (l ++ l') = decodedAll l ++ decodedAll l' := by
  induction l with
  | nil => rfl
  | cons i rest ih =>
    simp only [List.cons_append, decodedAll, ih]
    split <;> rfl

/-- The occupant of slot 4 is what the retire log lacks. -/
theorem decodedAll_take_succ (program : List RawInstr) (k : Nat) :
    decodedAll (program.take (k + 1)) =
      decodedAll (program.take k) ++ (decodedAt program k).decodedOccupant := by
  rw [List.take_add_one, decodedAll_append, decodedAt]
  cases program[k]? with
  | none => rfl
  | some i => cases hd : decodeRaw i <;> simp [decodedAll, hd, Slot.decodedOccupant]

theorem decodedAll_take_retired (program : List RawInstr) (c : Nat) :
    decodedAll (program.take (c + 1 - 4)) =
      decodedAll (program.take (c - 4)) ++ (recordAt program c).s4.decodedOccupant := by
  rcases Nat.lt_or_ge c 4 with hlt | hge
  · simp [recordAt, Nat.not_le_of_lt hlt, Slot.decodedOccupant,
      show c + 1 - 4 = 0 by omega, show c - 4 = 0 by omega, decodedAll]
  · obtain ⟨k, rfl⟩ := Nat.exists_eq_add_of_le' hge
    simpa [recordAt] using decodedAll_take_succ program k

section
variable {s : State} {c : Nat}

theorem State.AtCycle.typed (h : s.AtCycle c) : s.slots.typed := h.slots ▸ recordAt_typed s.imem c

/-- What is fetched at `pc` is what R183 fetches in cycle `c + 1`, past the end of the program too. -/
theorem State.AtCycle.rawAt_pc (h : s.AtCycle c) : rawAt s.imem s.pc.toNat = rawAt s.imem c := by
  rw [h.pc]
  rcases Nat.le_total c s.programLength with hle | hge
  · rw [Nat.min_eq_right hle]
  · rw [Nat.min_eq_left hge, rawAt_of_le hge]
    exact rawAt_of_le (Nat.le_refl _)

theorem State.AtCycle.slot_one {i : RawInstr} (h : s.AtCycle (c + 1)) (hi : s.imem[c]? = some i) :
    s.slots.s1 = .raw i := by
  simp [h.slots, recordAt, rawAt_of_getElem? hi]

theorem State.AtCycle.slot_two {i : RawInstr} {d : Decoded} (h : s.AtCycle (c + 2))
    (hi : s.imem[c]? = some i) (hd : decodeRaw i = .ok d) : s.slots.s2 = .dec d := by
  simp [h.slots, recordAt, decodedAt_of_getElem? hi hd]

theorem State.AtCycle.mem_of_slot_one {i : RawInstr} (h : s.AtCycle c) (hi : s.slots.s1 = .raw i) :
    i ∈ s.imem := by
  simp only [h.slots, recordAt, rawAt] at hi
  split at hi
  · split at hi <;> cases hi
    next hi => exact List.mem_of_getElem? hi
  · cases hi

theorem State.AtCycle.mem_of_slot_two {d : Decoded} (h : s.AtCycle c) (hd : s.slots.s2 = .dec d) :
    ∃ i ∈ s.imem, decodeRaw i = .ok d := by
  simp only [h.slots, recordAt] at hd
  split at hd
  · obtain ⟨i, hi, hdec⟩ := decodedAt_eq_dec hd
    exact ⟨i, List.mem_of_getElem? hi, hdec⟩
  · cases hd

end

theorem State.programLength_congr {s t : State} (h : t.imem = s.imem) : t.programLength = s.programLength :=
  congrArg List.length h

/-! The timetable as an invariant of the step (R183, R187). -/

theorem raisesNothing_iff (i : RawInstr) :
    raisesNothing i = true ↔ ∃ d op, decodeRaw i = .ok d ∧ resolve d = .ok op := by
  cases hd : decodeRaw i with
  | error k => simp [raisesNothing, resolveRaw, hd]
  | ok d => cases hop : resolve d <;> simp [raisesNothing, resolveRaw, hd, hop]

/-- What a step decodes into slot 2 is what R183 decodes in cycle `c + 1`. -/
theorem State.AtCycle.slot_two_advance {s t : State} {c : Nat} (hat : s.AtCycle c)
    (par : StepsInParallel s t) (h : step s = .next t) (ht : t.latch = none) :
    t.slots.s2 = (recordAt s.imem (c + 1)).s2 := by
  cases c with
  | zero => exact par.bubble (by rw [hat.slots]; rfl)
  | succ k =>
    cases hi : s.imem[k]? with
    | none =>
      have hle := List.getElem?_eq_none_iff.1 hi
      simpa [recordAt, decodedAt_of_le hle] using par.bubble (by simp [hat.slots, recordAt, rawAt_of_le hle])
    | some i =>
      have h1 := hat.slot_one hi
      obtain ⟨d, hd⟩ := decodes_of_step h hat.latch ht h1
      simpa [recordAt, decodedAt_of_getElem? hi hd] using par.decoded i d h1 hd

theorem State.AtCycle.slots_advance {s t : State} {c : Nat} (hat : s.AtCycle c)
    (par : StepsInParallel s t) (h : step s = .next t) (ht : t.latch = none) :
    t.slots = recordAt s.imem (c + 1) := by
  change Slots.mk t.slots.s0 t.slots.s1 t.slots.s2 t.slots.s3 t.slots.s4 = _
  rw [par.slot0, par.fetched, hat.rawAt_pc, hat.slot_two_advance par h ht, par.executed, par.accessed, hat.slots]
  simp [recordAt]

/-- A busy step that latches nothing leads to the next line of the timetable, whatever the program. -/
theorem State.AtCycle.advance {s t : State} {c : Nat} (hat : s.AtCycle c)
    (hfits : s.programLength < Config.programLimit) (hbusy : s.busy = true) (h : step s = .next t)
    (ht : t.latch = none) : t.AtCycle (c + 1) := by
  have par := stepsInParallel_of_step h hbusy hat.typed ht
  have himem := programNeverChanges s t h
  have hslots : t.slots = recordAt t.imem (c + 1) := himem ▸ hat.slots_advance par h ht
  exact {
    slots := hslots
    pc := by
      have hpc := hat.pc
      rw [Config.programLimit] at hfits
      rw [par.pc, State.programLength_congr himem]
      split_ifs <;> bv_omega
    hist := by rw [par.hist, hslots, hat.hist, List.range_succ, List.map_append, himem]; rfl
    retired := by rw [par.retired, hat.retired, hat.slots, himem, decodedAll_take_retired]
    latch := ht }

/-- On the timetable a step latches a fault only where an instruction of the program raises one. -/
theorem State.AtCycle.raising_of_latched {s t : State} {c : Nat} (hat : s.AtCycle c)
    (h : step s = .next t) (ht : t.latch ≠ none) : ∃ i ∈ s.imem, raisesNothing i ≠ true := by
  obtain ⟨f, hf⟩ := Option.ne_none_iff_exists'.1 ht
  obtain ⟨d, hd, hk, -⟩ | ⟨i, hi, hk, -⟩ := latch_cause_of_step hat.latch h hf
  · obtain ⟨i, hmem, hdec⟩ := hat.mem_of_slot_two hd
    exact ⟨i, hmem, by simp [raisesNothing, resolveRaw, hdec, hk]⟩
  · exact ⟨i, hat.mem_of_slot_one hi, by simp [raisesNothing, resolveRaw, hk]⟩

/-- Settles O53: where no instruction raises, the step latches nothing, and so advances the timetable. -/
theorem stepAdvancesTimetable : Obligations.StepAdvancesTimetable := by
  intro s c hfits hclean hat hbusy
  obtain ⟨t, h⟩ := step_answers s
  have ht : t.latch = none := by
    by_contra hne
    obtain ⟨i, hmem, hraises⟩ := hat.raising_of_latched h hne
    exact hraises (hclean i hmem)
  exact ⟨t, h, programNeverChanges s t h, hat.advance hfits hbusy h ht⟩

/-! The sequential machine (R189). -/

theorem SameData.symm {s t : State} (h : SameData s t) : SameData t s :=
  ⟨h.1.symm, h.2.1.symm, h.2.2.symm⟩

theorem seqRun_append (l l' : List RawInstr) (s : State) : seqRun (l ++ l') s = seqRun l' (seqRun l s) := by
  induction l generalizing s with
  | nil => rfl
  | cons i rest ih => exact ih (seqExec i s)

theorem seqAfter_succ (k : Nat) (s : State) :
    seqAfter (k + 1) s = seqRun s.imem[k]?.toList (seqAfter k s) := by
  rw [seqAfter, List.take_add_one, seqRun_append, ← seqAfter]

theorem seqAfter_congr {j k : Nat} {s : State} (h : min j s.programLength = min k s.programLength) :
    seqAfter j s = seqAfter k s := by
  rw [seqAfter, seqAfter, (List.take_eq_take_iff ..).2 h]

theorem seqAfter_of_le {k : Nat} {s : State} (h : s.programLength ≤ k) : seqAfter k s = seqRun s.imem s := by
  rw [seqAfter, List.take_of_length_le h]

/-- What the sequential machine does to equal data. -/
theorem sameData_seqExec {i : RawInstr} {d : Decoded} {op : Instr} {s s' x : State}
    (hd : decodeRaw i = .ok d) (hop : resolve d = .ok op) (hdata : SameData s s') (hx : exec op s = .next x) :
    SameData x (seqExec i s') := by
  obtain ⟨x', hx', hsame⟩ := exec_sameData hdata hx
  simpa only [seqExec, resolveRaw, hd, hop, hx'] using hsame

/-! Whole runs: as long as no fault is latched they follow the timetable, and what has executed has raised
nothing. -/

/-- `t` is where `c` cycles that raise nothing lead from the launch state `s`: the timetable, the data of the
sequential machine, and that everything decoded or executed so far was sound. -/
structure ReachedCleanly (s : State) (c : Nat) (t : State) : Prop where
  atCycle : t.AtCycle c
  imem : t.imem = s.imem
  data : SameData t (seqAfter (c - 2) s)
  decodes : ∀ i ∈ s.imem.take (c - 1), ∃ d, decodeRaw i = .ok d
  resolves : ∀ i ∈ s.imem.take (c - 2), raisesNothing i = true

theorem forall_mem_take_succ {α : Type} {P : α → Prop} {l : List α} {k : Nat} (h : ∀ a ∈ l.take k, P a)
    (hk : ∀ a, l[k]? = some a → P a) : ∀ a ∈ l.take (k + 1), P a := by
  rw [List.take_add_one]
  exact List.forall_mem_append.2 ⟨h, fun a ha => hk a (Option.mem_toList.1 ha)⟩

section
variable {s t u : State} {c : Nat}

theorem reachedCleanly_zero (h : s.Launched) : ReachedCleanly s 0 s where
  atCycle := {
    slots := h.slots
    pc := by simp [h.pc]
    hist := h.hist
    retired := h.retired
    latch := h.latch }
  imem := rfl
  data := ⟨rfl, rfl, rfl⟩
  decodes := by simp
  resolves := by simp

/-- What the instruction in slot 2 does to the data is what the sequential machine does next. -/
theorem ReachedCleanly.executes (hu : ReachedCleanly s (c + 2) u) (h : step u = .next t)
    (ht : t.latch = none) {i : RawInstr} (hi : s.imem[c]? = some i) :
    raisesNothing i = true ∧ SameData t (seqExec i (seqAfter c s)) := by
  obtain ⟨d, hd⟩ := hu.decodes i (List.mem_of_getElem? (i := c) (by simpa using hi))
  have h2 := hu.atCycle.slot_two (hu.imem ▸ hi) hd
  obtain ⟨op, hop⟩ := resolves_of_step h hu.atCycle.latch ht h2
  obtain ⟨-, x, hx, hsame⟩ := step_executes_slot_two h hu.atCycle.latch ht h2 hop
  exact ⟨(raisesNothing_iff i).2 ⟨d, op, hd, hop⟩, hsame.trans (sameData_seqExec hd hop hu.data hx)⟩

/-- A busy step that latches nothing is one cycle more. -/
theorem ReachedCleanly.advance (hfits : s.programLength < Config.programLimit) (hu : ReachedCleanly s c u)
    (hbusy : u.busy = true) (h : step u = .next t) (ht : t.latch = none) : ReachedCleanly s (c + 1) t where
  atCycle := hu.atCycle.advance (by rwa [State.programLength_congr hu.imem]) hbusy h ht
  imem := (programNeverChanges u t h).trans hu.imem
  data := by
    have idle (h2 : u.slots.s2 = .empty) : SameData t (seqAfter (c - 2) s) :=
      (sameData_of_slot_two_empty h2 h).trans hu.data
    rcases Nat.lt_or_ge c 2 with hlt | hge
    · rw [show c + 1 - 2 = c - 2 by omega]
      exact idle (by simp [hu.atCycle.slots, recordAt, Nat.not_le_of_lt hlt])
    · obtain ⟨k, rfl⟩ := Nat.exists_eq_add_of_le' hge
      rw [show k + 2 + 1 - 2 = k + 1 by omega, seqAfter_succ]
      cases hi : s.imem[k]? with
      | none =>
        have hempty := decodedAt_of_le (List.getElem?_eq_none_iff.1 hi)
        exact idle (by simp [hu.atCycle.slots, recordAt, hu.imem, hempty])
      | some i => exact (hu.executes h ht hi).2
  decodes := by
    cases c with
    | zero => simp
    | succ k =>
      exact forall_mem_take_succ hu.decodes fun i hi =>
        decodes_of_step h hu.atCycle.latch ht (hu.atCycle.slot_one (hu.imem ▸ hi))
  resolves := by
    rcases Nat.lt_or_ge c 2 with hlt | hge
    · simp [show c + 1 - 2 = 0 by omega]
    · obtain ⟨k, rfl⟩ := Nat.exists_eq_add_of_le' hge
      exact forall_mem_take_succ hu.resolves fun i hi => (hu.executes h ht hi).1

/-- Such a machine is halted exactly from the last cycle of R184 on. -/
theorem ReachedCleanly.halted_iff (ht : ReachedCleanly s c t) :
    t.halted = true ↔ cycleTotal s.programLength ≤ c := by
  rw [State.halted_iff, ht.atCycle.slots, ht.atCycle.pc, State.programLength_congr ht.imem, ht.imem]
  constructor
  · rintro ⟨hempty, hpc⟩
    by_contra hlt
    have hc : 1 ≤ c := by
      rw [cycleTotal_le_iff] at hlt
      omega
    exact recordAt_ne_allEmpty hc (Nat.lt_of_not_le hlt) ht.decodes hempty
  · intro hle
    refine ⟨recordAt_of_le hle, ?_⟩
    rw [cycleTotal_le_iff] at hle
    omega

theorem ReachedCleanly.busy_iff (ht : ReachedCleanly s c t) :
    t.busy = true ↔ c < cycleTotal s.programLength := by
  rw [State.busy_iff, Bool.eq_false_iff, Ne, ht.halted_iff, Nat.not_le]
  exact and_iff_left ht.atCycle.latch

theorem ReachedCleanly.final (ht : ReachedCleanly s c t) (hc : cycleTotal s.programLength ≤ c) :
    t.final = true := by
  simp [State.final, State.faulted, ht.halted_iff.2 hc, ht.atCycle.latch]

theorem ReachedCleanly.data_of_le (ht : ReachedCleanly s c t) (hc : s.programLength ≤ c - 2) :
    SameData t (seqRun s.imem s) :=
  seqAfter_of_le hc ▸ ht.data

/-- Every run from a launch state either has latched the fault of an instruction, or follows the timetable
to its last cycle and stays there. -/
theorem runFor_cases (h : s.Launched) (c : Nat) : ∃ t, runFor c s = .next t ∧
    ((t.latch ≠ none ∧ ∃ i ∈ s.imem, raisesNothing i ≠ true) ∨
      ReachedCleanly s (min c (cycleTotal s.programLength)) t) := by
  induction c with
  | zero => exact ⟨s, rfl, .inr (by simpa using reachedCleanly_zero h)⟩
  | succ c ih =>
    obtain ⟨u, t, hru, hstep, hrt⟩ := runFor_succ c s
    obtain ⟨u', hru', hu⟩ := ih
    cases hru.symm.trans hru'
    refine ⟨t, hrt, ?_⟩
    obtain ⟨hlatch, hraises⟩ | hu := hu
    · cases (step_of_latched hlatch).symm.trans hstep
      exact .inl ⟨hlatch, hraises⟩
    cases hbusy : u.busy with
    | false =>
      cases (step_of_not_busy hbusy).symm.trans hstep
      have hend := mt hu.busy_iff.2 (Bool.eq_false_iff.1 hbusy)
      rw [show min (c + 1) (cycleTotal s.programLength) = min c (cycleTotal s.programLength) by omega]
      exact .inr hu
    | true =>
      have hlt := hu.busy_iff.1 hbusy
      rw [show min (c + 1) (cycleTotal s.programLength) = min c (cycleTotal s.programLength) + 1 by omega]
      by_cases ht : t.latch = none
      · exact .inr (hu.advance h.fits hbusy hstep ht)
      · exact .inl ⟨ht, hu.imem ▸ hu.atCycle.raising_of_latched hstep ht⟩

/-- A run of a program that raises nothing follows the timetable. -/
theorem runFor_of_raisesNothing (h : s.Launched) (hclean : ∀ i ∈ s.imem, raisesNothing i = true) (c : Nat) :
    ∃ t, runFor c s = .next t ∧ ReachedCleanly s (min c (cycleTotal s.programLength)) t := by
  obtain ⟨t, hrun, ⟨-, i, hmem, hraises⟩ | ht⟩ := runFor_cases h c
  · exact absurd (hclean i hmem) hraises
  · exact ⟨t, hrun, ht⟩

theorem runFor_of_le_total (h : s.Launched) (hclean : ∀ i ∈ s.imem, raisesNothing i = true)
    (hpos : 1 ≤ s.programLength) (hc : c ≤ s.programLength + 4) :
    ∃ t, runFor c s = .next t ∧ ReachedCleanly s c t := by
  obtain ⟨t, hrun, ht⟩ := runFor_of_raisesNothing h hclean c
  rw [cycleTotal_of_pos hpos, Nat.min_eq_left hc] at ht
  exact ⟨t, hrun, ht⟩

theorem ReachedCleanly.length_hist (ht : ReachedCleanly s c t) : t.hist.length = c := by
  simp [ht.atCycle.hist]

theorem ReachedCleanly.getElem?_hist (ht : ReachedCleanly s c t) {j : Nat} (hj : j < c) :
    t.hist[j]? = some (recordAt s.imem (j + 1)) := by
  simp [ht.atCycle.hist, ht.imem, hj]

end

/-- Settles O48: `runFor_of_le_total`, with the data after all instructions that have left slot 2. -/
theorem runFollowsTimetable : Obligations.RunFollowsTimetable := by
  intro s c h hclean hpos hc
  obtain ⟨t, hrun, ht⟩ := runFor_of_le_total h hclean hpos hc
  refine ⟨t, hrun, ht.atCycle, ht.imem, ?_⟩
  rw [seqAfter_congr (k := c - 2) (by omega)]
  exact ht.data

/-- Settles O49: the machine is busy through cycle N + 3, whose record is the last with an occupant, and by
then all instructions have executed. -/
theorem cycleCountLaw : Obligations.CycleCountLaw := by
  intro s h hclean
  refine ⟨fun hzero => (reachedCleanly_zero h).halted_iff.2 (by simp [cycleTotal, hzero]), fun hpos => ⟨?_, ?_⟩⟩
  · intro c hc
    obtain ⟨t, hrun, ht⟩ := runFor_of_le_total h hclean hpos hc.le
    exact ⟨t, hrun, ht.busy_iff.2 (by rwa [cycleTotal_of_pos hpos]), ht.length_hist⟩
  · obtain ⟨t, hrun, ht⟩ := runFor_of_le_total h hclean hpos (Nat.le_refl _)
    obtain ⟨u, hrun', hu⟩ := runFor_of_le_total h hclean hpos (Nat.le_succ (s.programLength + 3))
    have htotal := cycleTotal_of_pos hpos
    have hdata : SameData t u := (ht.data_of_le (by omega)).trans (hu.data_of_le (by omega)).symm
    refine ⟨t, u, hrun, ht.final htotal.le, hrun', hdata, ht.length_hist,
      fun j hj => ⟨_, ht.getElem?_hist (by omega), ?_⟩, ?_⟩
    · refine recordAt_ne_allEmpty (Nat.le_add_left 1 j) (htotal ▸ by omega) fun i hi => ?_
      obtain ⟨d, -, hd, -⟩ := (raisesNothing_iff i).1 (hclean i (List.mem_of_mem_take hi))
      exact ⟨d, hd⟩
    · rw [ht.getElem?_hist (by omega), recordAt_of_le htotal.le]

/-- Settles O50: after cycle c instructions 0 to c - 3 have executed, one at a time and in order. -/
theorem pipelineMatchesSequentialMachine : Obligations.PipelineMatchesSequentialMachine := by
  intro s c h hclean
  obtain ⟨t, hrun, ht⟩ := runFor_of_raisesNothing h hclean c
  have hdata : SameData t (seqAfter (c - 2) s) := by
    rw [seqAfter_congr (k := min c (cycleTotal s.programLength) - 2) ?_]
    · exact ht.data
    · have := le_cycleTotal_sub_two s.programLength
      omega
  refine ⟨t, hrun, ht.atCycle.latch, ?_, fun hc => ?_⟩
  · rwa [seqAfter_congr (k := c - 2) (by omega)]
  · rwa [seqAfter_of_le (by omega)] at hdata

/-- Settles O52: after N + 4 cycles a fault is latched, or all instructions have executed and every slot is
empty. -/
theorem everyRunEnds : Obligations.EveryRunEnds := by
  intro s h
  obtain ⟨t, hrun, ⟨hlatch, i, hmem, hraises⟩ | ht⟩ := runFor_cases h (s.programLength + 4)
  · refine ⟨t, hrun, Bool.eq_false_iff.2 fun hb => hlatch (State.latch_of_busy hb), iff_of_false ?_ ?_⟩
    · simp [State.final, State.faulted, hlatch]
    · exact fun hclean => hraises (hclean i hmem)
  · rw [Nat.min_eq_right (cycleTotal_le _)] at ht
    refine ⟨t, hrun, Bool.eq_false_iff.2 fun hb => Nat.lt_irrefl _ (ht.busy_iff.1 hb),
      iff_of_true (ht.final (Nat.le_refl _)) ?_⟩
    have hresolves := ht.resolves
    rwa [List.take_of_length_le (le_cycleTotal_sub_two s.programLength)] at hresolves

end Sys2Proof.Machine

/-! PROOFS. The statements of `60_exceptions.md`: where each fault ends the cycle and what it leaves (R204,
R205), that a fault is precise (R206), and that the word level has none (R209). -/

namespace Sys2Proof.Machine

/-- Settles O40: no sub-step raises at the word level, nor leaves it. -/
theorem wordLevelNeverFaults : Obligations.WordLevelNeverFaults := by
  intro s hword hs
  obtain ⟨t, h⟩ := step_answers s
  exact ⟨t, h, wordLevelUnlatched_keptBySubSteps.of_step ⟨hword, hs⟩ h⟩

/-! An operand fault ends the cycle in sub-step 3, a FormatError in sub-step 4 (R205). -/

section
variable {s u : State}

theorem step_of_operandFault {d : Decoded} {k : FaultKind} (hs : s.latch = none) (hd : s.slots.s2 = .dec d)
    (hk : resolve d = .error k) :
    step s = .next ((memoryAccessStage (writeBackStage s)).raise k (.dec d)) := by
  have hexec := executeStage_of_error (s := memoryAccessStage (writeBackStage s)) (by simpa using hd) hk
  simp [step_of_busy (State.busy_of_slot_two hs hd), cycle, hexec, State.faulted]

theorem step_of_formatError {r : RawInstr} {k : FaultKind} (hs : s.latch = none) (hr : s.slots.s1 = .raw r)
    (hk : decodeRaw r = .error k)
    (hexec : executeStage (memoryAccessStage (writeBackStage s)) = .next u) (hu : u.latch = none) :
    step s = .next (u.raise k (.raw r)) := by
  obtain ⟨-, -, -, h1⟩ := executed_frame hexec
  have hdecode := decodeStage_of_error (h1.trans hr) hk
  simp [step_of_busy (State.busy_of_slot_one hs hr), cycle, frontEnd, hexec, hdecode, State.faulted, hu]

/-- Where the occupant of slot 2 resolves, the first three sub-steps raise nothing. -/
theorem executed_of_resolves (hs : s.latch = none)
    (hresolves : ∀ d, s.slots.s2 = .dec d → ∃ i, resolve d = .ok i) :
    ∃ u, executeStage (memoryAccessStage (writeBackStage s)) = .next u ∧ u.latch = none := by
  obtain ⟨u, hexec, -⟩ := cycle_cases s
  refine ⟨u, hexec, ?_⟩
  by_contra hlatch
  obtain ⟨d, k, hd, hk, -⟩ := executeStage_latched hexec (by simpa using hs) hlatch
  obtain ⟨i, hi⟩ := hresolves d (by simpa using hd)
  cases hk.symm.trans hi

/-- What the first three sub-steps do to the data is what the instruction in slot 2 does. -/
theorem executed_sameData {d : Decoded} {i : Instr} {x : State}
    (hexec : executeStage (memoryAccessStage (writeBackStage s)) = .next u)
    (hd : s.slots.s2 = .dec d) (hi : resolve d = .ok i) (hx : exec i s = .next x) : SameData u x := by
  have moved : SameData s (memoryAccessStage (writeBackStage s)) := by simp [SameData]
  obtain ⟨y, hy, hsame⟩ := exec_sameData moved hx
  rw [executeStage_of_ok (by simpa using hd) hi hy] at hexec
  cases hexec
  exact hsame.symm

end

/-- Settles O36: the Execute sub-step only latches, so the state is that of the first two sub-steps. -/
theorem operandFaultEndsCycle : Obligations.OperandFaultEndsCycle := by
  intro s d k hs htyped hd hk
  have h := step_of_operandFault hs hd hk
  rw [memoryAccess_writeBack_of_typed htyped] at h
  obtain ⟨h0, -⟩ := htyped
  exact ⟨_, h, rfl, ⟨rfl, rfl, rfl⟩, rfl, by simp [h0, hd], rfl, rfl, rfl⟩

/-- Settles O37: the Decode sub-step only latches, so the state is that of the first three sub-steps. -/
theorem formatErrorEndsCycle : Obligations.FormatErrorEndsCycle := by
  intro s r k hs htyped hresolves hr hk
  obtain ⟨u, hexec, hu⟩ := executed_of_resolves hs hresolves
  have h := step_of_formatError hs hr hk hexec hu
  obtain ⟨hpc, hhist, himem, -⟩ := executed_frame hexec
  obtain ⟨hslots, hretired⟩ := executed_of_typed htyped hexec hu
  obtain rfl := formatError_of_decodeRaw_error hk
  exact ⟨_, h, rfl, rfl, fun h2 => sameData_of_slot_two_empty h2 h,
    fun d i x hd hi hx => (executed_sameData hexec hd hi hx : SameData u x), hpc, hr ▸ hslots, hhist,
    hretired, himem⟩

/-! Precise faults (R206): up to the step that latches, the run follows the timetable. -/

theorem State.AtCycle.index_of_slot_one {s : State} {c : Nat} {i : RawInstr} (h : s.AtCycle c)
    (hi : s.slots.s1 = .raw i) : ∃ k, c = k + 1 ∧ s.imem[k]? = some i := by
  simp only [h.slots, recordAt, rawAt] at hi
  split at hi
  · next hc =>
    split at hi <;> cases hi
    next hi => exact ⟨c - 1, by omega, hi⟩
  · cases hi

theorem State.AtCycle.index_of_slot_two {s : State} {c : Nat} {d : Decoded} (h : s.AtCycle c)
    (hd : s.slots.s2 = .dec d) : ∃ k i, c = k + 2 ∧ s.imem[k]? = some i ∧ decodeRaw i = .ok d := by
  simp only [h.slots, recordAt] at hd
  split at hd
  · next hc =>
    obtain ⟨i, hi, hdec⟩ := decodedAt_eq_dec hd
    exact ⟨c - 2, i, by omega, hi, hdec⟩
  · cases hd

/-- A step that latches a FormatError has resolved the occupant of slot 2: the older instruction would have
raised first. -/
theorem resolves_of_latched_raw {s t : State} {f : FaultLatch} {r : RawInstr} {d : Decoded}
    (h : step s = .next t) (hs : s.latch = none) (ht : t.latch = some f) (hf : f.occupant = .raw r)
    (hd : s.slots.s2 = .dec d) : ∃ i, resolve d = .ok i := by
  cases hi : resolve d with
  | ok i => exact ⟨i, rfl⟩
  | error k =>
    cases h.symm.trans (step_of_operandFault hs hd hi)
    cases ht
    cases hf

section
variable {s t u : State} {c : Nat} {f : FaultLatch}

/-- A run that ends with a fault latched has a last step before which it was clean. -/
theorem exists_latching_step (h : s.Launched) (hrun : runFor c s = .next t) (ht : t.latch = some f) :
    ∃ n u, ReachedCleanly s n u ∧ step u = .next t := by
  induction c generalizing t with
  | zero =>
    cases hrun
    cases h.latch.symm.trans ht
  | succ c ih =>
    obtain ⟨u, t', hru, hstep, hrt⟩ := runFor_succ c s
    cases hrun.symm.trans hrt
    by_cases hu : u.latch = none
    · obtain ⟨u', hru', ⟨hlatch, -⟩ | hclean⟩ := runFor_cases h c <;> cases hru.symm.trans hru'
      · exact absurd hu hlatch
      · exact ⟨_, u, hclean, hstep⟩
    · cases (step_of_latched hu).symm.trans hstep
      exact ih hru ht

/-- Where instruction `c` raises an operand fault, those before it have executed and nothing more. -/
theorem ReachedCleanly.sameData_of_operandFault {d : Decoded} {k : FaultKind}
    (hu : ReachedCleanly s (c + 2) u) (h : step u = .next t) (hd : u.slots.s2 = .dec d)
    (hk : resolve d = .error k) : SameData t (seqAfter c s) := by
  obtain ⟨t', h', -, hdata, -⟩ := operandFaultEndsCycle u d k hu.atCycle.latch hu.atCycle.typed hd hk
  cases h.symm.trans h'
  exact hdata.trans hu.data

/-- Where instruction `c` raises a FormatError, those before it raise nothing, and they have executed, the
last of them in the same cycle. -/
theorem ReachedCleanly.precise_of_formatError {r : RawInstr} {k : FaultKind}
    (hu : ReachedCleanly s (c + 1) u) (h : step u = .next t) (ht : t.latch = some f)
    (hf : f.occupant = .raw r) (hr : s.imem[c]? = some r) (hk : decodeRaw r = .error k) :
    (∀ j ∈ s.imem.take c, raisesNothing j = true) ∧ SameData t (seqAfter c s) := by
  have hlatch := hu.atCycle.latch
  have hresolves (d : Decoded) (hd : u.slots.s2 = .dec d) : ∃ i, resolve d = .ok i :=
    resolves_of_latched_raw h hlatch ht hf hd
  cases c with
  | zero =>
    have hempty : u.slots.s2 = .empty := by simp [hu.atCycle.slots, recordAt]
    exact ⟨by simp, (sameData_of_slot_two_empty hempty h).trans hu.data⟩
  | succ c =>
    obtain ⟨hlt, -⟩ := List.getElem?_eq_some_iff.1 hr
    obtain ⟨i, hi⟩ : ∃ i, s.imem[c]? = some i := ⟨_, List.getElem?_eq_getElem (Nat.lt_of_succ_lt hlt)⟩
    obtain ⟨d, hd⟩ := hu.decodes i (List.mem_of_getElem? (i := c) (by simpa using hi))
    have h2 := hu.atCycle.slot_two (hu.imem ▸ hi) hd
    obtain ⟨op, hop⟩ := hresolves d h2
    obtain ⟨x, hx, -⟩ := exec_frame op u
    obtain ⟨t', h', -, -, -, hexecutes, -⟩ :=
      formatErrorEndsCycle u r k hlatch hu.atCycle.typed hresolves (hu.atCycle.slot_one (hu.imem ▸ hr)) hk
    cases h.symm.trans h'
    refine ⟨forall_mem_take_succ hu.resolves fun i' hi' => ?_, ?_⟩
    · cases hi.symm.trans hi'
      exact (raisesNothing_iff _).2 ⟨d, op, hd, hop⟩
    · rw [seqAfter_succ, hi]
      exact (hexecutes d op x h2 hop hx).trans (sameData_seqExec hd hop hu.data hx)

end

/-- Settles O51: the occupant that the last step latches is instruction `k` of the timetable, in slot 2 or in
slot 1, and every instruction before it has executed. -/
theorem faultsArePrecise : Obligations.FaultsArePrecise := by
  intro s t c f hlaunched hrun ht
  obtain ⟨n, u, hu, h⟩ := exists_latching_step hlaunched hrun ht
  obtain ⟨d, hd, hk, hf, -⟩ | ⟨r, hr, hk, hf, -⟩ := latch_cause_of_step hu.atCycle.latch h ht
  · obtain ⟨k, i, rfl, hi, hdec⟩ := hu.atCycle.index_of_slot_two hd
    exact ⟨k, i, hu.imem ▸ hi, by simp [resolveRaw, hdec, hk, ← hf], hu.resolves,
      hu.sameData_of_operandFault h hd hk⟩
  · obtain ⟨k, rfl, hi⟩ := hu.atCycle.index_of_slot_one hr
    rw [hu.imem] at hi
    exact ⟨k, r, hi, by simp [resolveRaw, hk, ← hf], hu.precise_of_formatError h ht hf hi hk⟩

end Sys2Proof.Machine

/-! PROOFS. The statements of `70_reset_and_hazards.md`: a load and a store of one address back to back
(R241). Each instruction completes its effect before the next one reads. -/

namespace Sys2Proof.Machine

/-- Settles O17: the store leaves its value in the cell that the load reads, and the load keeps memory well
formed, so the store after it is read back. -/
theorem storeAndLoadBackToBack : Obligations.StoreAndLoadBackToBack := by
  constructor
  · intro rt q off off' base base' s t hwf hstore haddr
    obtain ⟨t', hstore', hcell, -⟩ := swStoresCellOnly rt off base s hwf
    cases hstore.symm.trans hstore'
    obtain ⟨u, hload, hvalue, -⟩ := lwLoadsCellOnly q off' base' t
    exact ⟨u, hload, hvalue.trans ((congrArg t.memRead haddr).trans hcell)⟩
  · intro rt q off off' base base' s t hwf hload
    obtain ⟨u, hstore, hcell, -⟩ := swStoresCellOnly q off' base' t (exec_memoryWf hload hwf)
    exact ⟨u, hstore, hcell⟩

end Sys2Proof.Machine

/-! PROOFS. The host's side (`70_reset_and_hazards.md` R232, R236): the launch with its preloads, the end of
loading at the first cycle, and the placing of a word (R183). -/

namespace Sys2Proof.Machine

/-! Preloads, one place at a time: the last one made of a place decides (`10_state.md` R40). -/

theorem lastPreload_concat {α : Type} [DecidableEq α] (l : List (α × Word)) (b : α) (v : Word) (a : α) :
    lastPreload (l ++ [(b, v)]) a = if b = a then v else lastPreload l a := by
  induction l with
  | nil => simp [lastPreload]
  | cons c rest ih =>
    by_cases hb : b = a
    · subst hb
      simpa [lastPreload] using ih
    · simp [lastPreload, ih, hb]

theorem preloadRegs_concat (l : List (RegIdx × Word)) (r : RegIdx) (v : Word) (s : State) :
    State.preloadRegs (l ++ [(r, v)]) s = (State.preloadRegs l s).writeReg r v := by
  induction l generalizing s with
  | nil => rfl
  | cons c rest ih => exact ih (s.writeReg c.1 c.2)

theorem preloadCells_concat (l : List (Word × Word)) (a v : Word) (s : State) :
    State.preloadCells (l ++ [(a, v)]) s = (State.preloadCells l s).memWrite a v := by
  induction l generalizing s with
  | nil => rfl
  | cons c rest ih => exact ih (s.memWrite c.1 c.2)

theorem sameButRegs_preloadRegs (l : List (RegIdx × Word)) (s : State) :
    SameButRegs s (State.preloadRegs l s) := by
  induction l generalizing s with
  | nil => exact ⟨rfl, rfl, rfl, rfl, rfl, rfl, rfl, rfl⟩
  | cons c rest ih => exact ih (s.writeReg c.1 c.2)

theorem sameButMemory_preloadCells (l : List (Word × Word)) (s : State) :
    SameButMemory s (State.preloadCells l s) := by
  induction l generalizing s with
  | nil => exact ⟨rfl, rfl, rfl, rfl, rfl, rfl, rfl⟩
  | cons c rest ih => exact ih (s.memWrite c.1 c.2)

theorem readReg_preloadRegs {s : State} (hzero : ∀ r, s.readReg r = 0#32) (l : List (RegIdx × Word))
    (r : RegIdx) : (State.preloadRegs l s).readReg r = lastPreload l r := by
  induction l using List.reverseRecOn with
  | nil => exact hzero r
  | append_singleton l c ih =>
    obtain ⟨q, v⟩ := c
    rw [preloadRegs_concat, lastPreload_concat]
    split_ifs with hq
    · rw [hq, State.readReg_writeReg_self]
    · rw [State.readReg_writeReg_of_ne _ _ (Ne.symm hq), ih]

theorem memoryWf_preloadCells {s : State} (h : s.memoryWf) (l : List (Word × Word)) :
    (State.preloadCells l s).memoryWf := by
  induction l generalizing s with
  | nil => exact h
  | cons c rest ih => exact ih (State.memoryWf_memWrite h c.1 c.2)

theorem memRead_preloadCells {s : State} (h : s.memoryWf) (hzero : ∀ a, s.memRead a = 0#32)
    (l : List (Word × Word)) (a : Word) : (State.preloadCells l s).memRead a = lastPreload l a := by
  induction l using List.reverseRecOn with
  | nil => exact hzero a
  | append_singleton l c ih =>
    obtain ⟨b, v⟩ := c
    obtain ⟨hmem, -⟩ := memoryWf_preloadCells h l
    rw [preloadCells_concat, lastPreload_concat]
    split_ifs with hb
    · rw [hb, State.memRead_memWrite_self hmem]
    · rw [State.memRead_memWrite_of_ne _ _ (Ne.symm hb), ih]

theorem mem_keys_preloadCells (l : List (Word × Word)) (s : State) (k : Nat) :
    k ∈ (State.preloadCells l s).keys ↔ k ∈ s.keys ∨ ∃ c ∈ l, c.1.toNat = k := by
  induction l generalizing s with
  | nil => simp [State.preloadCells]
  | cons c rest ih =>
    have hadd : k ∈ (s.memWrite c.1 c.2).keys ↔ k = c.1.toNat ∨ k ∈ s.keys := KeySet.mem_add ..
    simp only [State.preloadCells, ih, hadd, List.mem_cons, exists_eq_or_imp, eq_comm (a := k)]
    tauto

/-! The launch (R232): three steps from reset. -/

/-- Reset with the program supplied: the launch state before its preloads. -/
def State.resetWith (program : List RawInstr) : State := { State.reset with imem := program }

theorem loadProgram_reset {program : List RawInstr} (h : program.length < Config.programLimit) :
    State.reset.loadProgram program = some (State.resetWith program) := by
  simp [State.loadProgram, State.beforeCycleOne, State.faulted, State.reset, State.resetWith, h]

theorem resetWith_launched {program : List RawInstr} (h : program.length < Config.programLimit) :
    (State.resetWith program).Launched := ⟨rfl, rfl, rfl, rfl, rfl, h⟩

theorem launch_eq {program : List RawInstr} (h : program.length < Config.programLimit)
    (regInit : List (RegIdx × Word)) (memInit : List (Word × Word)) :
    launch program regInit memInit =
      some (State.preloadCells memInit (State.preloadRegs regInit (State.resetWith program))) := by
  rw [launch, loadProgram_reset h, Option.map_some]

theorem State.Launched.preloads {s : State} (h : s.Launched) (regInit : List (RegIdx × Word))
    (memInit : List (Word × Word)) :
    (State.preloadCells memInit (State.preloadRegs regInit s)).Launched := by
  obtain ⟨-, -, hpc, hslots, hhist, hretired, hlatch, himem⟩ := sameButRegs_preloadRegs regInit s
  obtain ⟨-, hpc', hslots', hhist', hretired', hlatch', himem'⟩ :=
    sameButMemory_preloadCells memInit (State.preloadRegs regInit s)
  exact ⟨hpc'.trans (hpc.trans h.pc), hslots'.trans (hslots.trans h.slots), hhist'.trans (hhist.trans h.hist),
    hretired'.trans (hretired.trans h.retired), hlatch'.trans (hlatch.trans h.latch),
    State.programLength_congr (himem'.trans himem) ▸ h.fits⟩

/-- A launch state meets the invariant as soon as its memory is well formed. -/
theorem State.Launched.inv {s : State} (h : s.Launched) (hmem : s.memoryWf) : s.Inv where
  memory := hmem
  pc := ⟨h.fits, by simp [h.pc]⟩
  slots := by rw [h.slots]; exact resetMeetsInvariant.slots
  history := by simp [h.hist]

/-- Settles O3: preloading registers keeps all else, preloading cells keeps the registers, and each preload
overrules those before it of the same place. -/
theorem launchIsResetWithPreloads : Obligations.LaunchIsResetWithPreloads := by
  intro program regInit memInit hfits
  obtain ⟨hmem, hkeys, -, -, -, -, -, himem⟩ := sameButRegs_preloadRegs regInit (State.resetWith program)
  obtain ⟨hregs, -, -, -, -, -, himem'⟩ :=
    sameButMemory_preloadCells memInit (State.preloadRegs regInit (State.resetWith program))
  have hwf : (State.preloadRegs regInit (State.resetWith program)).memoryWf := by
    rw [State.memoryWf, hmem, hkeys]
    exact resetMeetsInvariant.memory
  have hlaunched := (resetWith_launched hfits).preloads regInit memInit
  refine ⟨_, launch_eq hfits regInit memInit, hlaunched, hlaunched.inv (memoryWf_preloadCells hwf memInit),
    himem'.trans himem, fun r => ?_, fun a => ?_, fun k => ?_⟩
  · rw [State.readReg_of_regs_eq hregs]
    exact readReg_preloadRegs (s := State.resetWith program) reset_atResetValues.regs regInit r
  · refine memRead_preloadCells hwf (fun b => ?_) memInit a
    rw [State.memRead, hmem]
    exact reset_atResetValues.mem b
  · rw [mem_keys_preloadCells, hkeys]
    exact or_iff_right List.not_mem_nil

/-! After the first cycle (R236). -/

/-- A busy step appends to the history or latches a fault; either ends the time before cycle 1. -/
theorem beforeCycleOne_of_busy_step {s t : State} (hbusy : s.busy = true) (h : step s = .next t) :
    t.beforeCycleOne = false := by
  by_cases ht : t.latch = none
  · have hhist := (historyIsAppendOnly s t h).1 hbusy ht
    simp [State.beforeCycleOne, hhist]
  · simp [State.beforeCycleOne, (State.faulted_eq_true_iff t).2 ht]

/-- Settles O4: each of the host's three operations is refused unless no cycle has run. -/
theorem hostLoadsOnlyBeforeCycleOne : Obligations.HostLoadsOnlyBeforeCycleOne := by
  intro s t hbusy h
  have hover := beforeCycleOne_of_busy_step hbusy h
  exact ⟨fun p => by simp [State.loadProgram, hover], fun r v => by simp [State.preloadReg, hover],
    fun a v => by simp [State.preloadCell, hover]⟩

/-! A placed word (log 7). -/

theorem eq_decodeWord_of_decodeTableWord {nbits w : Nat} {i : Instr} (h : decodeTableWord nbits w = some i) :
    i = decodeWord (tableWord nbits w) := by
  simp only [decodeTableWord, Option.ite_none_right_eq_some, Option.some.injEq] at h
  exact h.2.symm

/-- Settles O32: the placed word stands decoded in slot 2, every other slot is empty and the program is at
its end, so the step is the simultaneous assignment and brings nothing else into a slot. -/
theorem placedWordRunsInNextStep : Obligations.PlacedWordRunsInNextStep := by
  intro s nbits w i hdecode
  obtain rfl := eq_decodeWord_of_decodeTableWord hdecode
  obtain ⟨t, ht, -⟩ := exec_frame (decodeWord (tableWord nbits w)) (s.withFetchWord nbits w)
  have hbusy : (s.withFetchWord nbits w).busy = true := State.busy_of_slot_two rfl rfl
  have htyped : (s.withFetchWord nbits w).slots.typed := ⟨rfl, rfl, rfl, rfl, rfl⟩
  have hresolves : ∀ d, (s.withFetchWord nbits w).slots.s2 = .dec d → ∃ i, resolve d = .ok i := by
    rintro _ ⟨⟩
    exact ⟨_, rfl⟩
  obtain ⟨u, hu, -, h4, h3, -, hexec, h2, -, h1, -, h0, -, hlatch, -⟩ :=
    stepIsParallelForm _ hbusy htyped hresolves (by rintro _ ⟨⟩)
  refine ⟨t, u, ht, hu, hexec _ _ t rfl rfl ht, hlatch, ?_, rfl, rfl, rfl⟩
  calc u.slots = ⟨u.slots.s0, u.slots.s1, u.slots.s2, u.slots.s3, u.slots.s4⟩ := rfl
    _ = _ := by rw [h0, h1, h2 rfl, h3, h4]; rfl

end Sys2Proof.Machine
